-- ==== Sys2Proof/Word.lean ====
section
/-! DEFINITION. The bit and bit-sequence types of the block (00_scope.md R6, R8). -/

namespace Sys2Proof

/-- A bit: `false` is 0, `true` is 1 (R6). -/
abbrev Bit := Bool

/-- A bit sequence of length `n`. Element 0, the first bit in time (R6), is the MOST significant bit of the
vector, so that the vector read as an unsigned number is the spec's `num` (R8) and a hexadecimal literal reads
as the spec writes words. -/
abbrev Bits (n : Nat) := BitVec n

end Sys2Proof
end

