-- ==== Sys2Proof/Config.lean ====
section
/-! DEFINITION. The constants of R4, the parameters of R5 and the free values (00_scope.md, 92_eei_decisions.md).
The parameters are fixed when an instance is constructed and written by no step (R22, R106). -/

namespace Sys2Proof

/-! ## Geometry (R4) -/

/-- `WORD_BITS`: length of a ControlWord (R4). -/
@[simp] abbrev wordBits : Nat := 76
/-- `LANES`: number of interleaved sub-streams (R4). -/
@[simp] abbrev lanes : Nat := 4
/-- `LANE_BITS`: bits per sub-stream (R4). -/
@[simp] abbrev laneBits : Nat := 19
/-- `PAIRS`: (data, parity) pairs per word (R4). -/
@[simp] abbrev pairs : Nat := 38
/-- `ID_W` (R4). -/
@[simp] abbrev idW : Nat := 16
/-- `CMD_W` (R4). -/
@[simp] abbrev cmdW : Nat := 10
/-- `CRC_W` (R4). -/
@[simp] abbrev crcW : Nat := 10
/-- `CRC_COVER`: number of leading data bits the checksum covers (R4). -/
@[simp] abbrev crcCover : Nat := 27

/-! ## Literals (R4), held in a record because they are unaudited (N3, U9) -/

/-- The masks, seeds and polynomial of R4. -/
structure Literals where
  /-- `ID_XOR`. -/
  idXor : BitVec 16
  /-- `G_XOR`. -/
  gXor : Bit
  /-- `CMD_XOR`. -/
  cmdXor : BitVec 10
  /-- `CRC_SEED_A`, the seed of `acc` (R79). -/
  crcSeedA : BitVec 10
  /-- `CRC_SEED_B`, the seed of `op` (R79). -/
  crcSeedB : BitVec 10
  /-- `CRC_POLY`. -/
  crcPoly : BitVec 10
  deriving DecidableEq, Repr

/-- The values R4 gives. -/
def Literals.sz : Literals :=
  { idXor := 0x33C7#16, gXor := true, cmdXor := 0x32A#10,
    crcSeedA := 0x393#10, crcSeedB := 0x36E#10, crcPoly := 0x225#10 }

/-! ## Open parameters (R5) -/

/-- `DEINT_MAP` (D3). -/
inductive DeintMap where
  /-- `S[19k+m] = W[4m+k]`, the default. -/
  | lane4
  /-- `S[4m+k] = W[19k+m]`. -/
  | block19
  deriving DecidableEq, Repr

/-- `PARITY_MODE` (D4). -/
inductive ParityMode where
  /-- All syndrome bits first, then all flips; the default. -/
  | twoPass
  /-- One pass in which a repair clears the next syndrome bit. -/
  | sequentialRecompute
  deriving DecidableEq, Repr

/-- `CRC_ALGO` (D8): the spec defines one algorithm. -/
inductive CrcAlgo where
  | accOpRightShift
  deriving DecidableEq, Repr

/-- The parameters of one block instance (R5), with the literals of R4. -/
structure Config where
  /-- `SYNC_SYMBOL_IS_DATA` (D1). -/
  syncSymbolIsData : Bool
  deintMap : DeintMap
  parityMode : ParityMode
  /-- `PARITY_INIT` (D5). -/
  parityInit : Bit
  /-- `FIELD_MSB_FIRST` (D6). -/
  fieldMsbFirst : Bool
  /-- `CRC_FIELD_XOR` (D7). -/
  crcFieldXor : BitVec 10
  crcAlgo : CrcAlgo
  /-- `CNT_W` (D9): `none` is the unbounded default. -/
  cntW : Option Nat
  /-- `ENC_U` (D19), encoder side only. -/
  encU : Bit
  lit : Literals
  deriving DecidableEq, Repr

/-- The defaults of R5 with the literals of R4: what every rule is written for. -/
def Config.default : Config :=
  { syncSymbolIsData := true, deintMap := .lane4, parityMode := .twoPass, parityInit := false,
    fieldMsbFirst := true, crcFieldXor := 0x3FF#10, crcAlgo := .accOpRightShift, cntW := none,
    encU := false, lit := Literals.sz }

/-! ## Free values: no body, so nothing can be proved of one -/

/-- What a buffer cell at or above the length of the buffer reads as (U5, `any value`): first argument the draw,
second the address. No step of the block reads one (R30). DESIGN CHOICE, log entry 6. -/
opaque Config.staleCell : Nat → Nat → Bit

/-- What a `CNT_W`-bit counter holds after an increment that the spec leaves outside (U6, R113). DESIGN CHOICE,
log entry 9. -/
opaque Config.counterBeyond : Nat → Nat

/-- What RATIO returns once `valid + errors` has reached `2^CNT_W` (U6, R113). DESIGN CHOICE, log entry 10. -/
opaque Config.ratioBeyond : Nat → Rat

end Sys2Proof
end

