-- ==== Sys2Proof/Syntax.lean ====
section
/-! DEFINITION. The operations of the block, one constructor per row of opcode_table.json, and what the
environment can present: symbols (R42), RESET, RATIO and the transmit-side calls (R48). -/

namespace Sys2Proof

/-- The two states of BitframeSync (R14); they take part in the dispatch word (R48). -/
inductive Mode where
  | unsynced
  | tracking
  deriving DecidableEq, Repr

/-- One input symbol (R27, R42). An absent flag is `sync = false` (U2). -/
structure Symbol where
  sync : Bit
  pol : Bit
  deriving DecidableEq, Repr

/-- The operations of the block. A stage operation takes its operands from the transient values of R19, so its
constructor carries none. -/
inductive Instr where
  /-- SYM: the whole step one symbol causes (R86). -/
  | sym (sy : Symbol)
  /-- SCAN: a symbol without flag while unsynchronised (R54). -/
  | scan (pol : Bit)
  /-- ACQ: a flagged symbol while unsynchronised (R55). -/
  | acq (pol : Bit)
  /-- SHIFT: any symbol while tracking (R56). -/
  | shift (sync pol : Bit)
  /-- WORD: the 76th bit has arrived (R57). -/
  | word
  /-- DEINT (R61). -/
  | deint
  /-- SPLIT (R66). -/
  | split
  /-- SYND (R67). -/
  | synd
  /-- PCORR (R68). -/
  | pcorr
  /-- XTR.ID (R73). -/
  | xtrId
  /-- XTR.G (R74). -/
  | xtrG
  /-- XTR.CMD (R75). -/
  | xtrCmd
  /-- XTR.CRC (R76). -/
  | xtrCrc
  /-- CRCGEN (R79). -/
  | crcgen
  /-- CRCCHK (R81). -/
  | crcchk
  /-- ACCEPT (R82). -/
  | accept
  /-- REJECT (R83). -/
  | reject
  /-- DECODE: the WordDecoder as one operation (R85). -/
  | decode
  /-- RESET (R104). -/
  | reset
  /-- RATIO (R90). -/
  | ratio
  /-- INTLV (R63). -/
  | intlv (seq : Bits 76)
  /-- PENC (R71). -/
  | penc (c : Bits 38)
  /-- FPACK (R78); `u` absent means `ENC_U`. -/
  | fpack (id : BitVec 16) (g : Bit) (cmd : BitVec 10) (u : Option Bit)
  /-- ENCODE (R88); `u` absent means `ENC_U`. -/
  | encode (id : BitVec 16) (g : Bit) (cmd : BitVec 10) (u : Option Bit)
  deriving DecidableEq, Repr

/-- The operations the environment calls by name between steps (R48, R90, R104): they have no bits. -/
inductive EnvCall where
  | reset
  | ratio
  | intlv (seq : Bits 76)
  | penc (c : Bits 38)
  | fpack (id : BitVec 16) (g : Bit) (cmd : BitVec 10) (u : Option Bit)
  | encode (id : BitVec 16) (g : Bit) (cmd : BitVec 10) (u : Option Bit)
  deriving DecidableEq, Repr

/-- What the environment can present next: a symbol or a call. -/
inductive Request where
  | symbol (sy : Symbol)
  | call (c : EnvCall)
  deriving DecidableEq, Repr

end Sys2Proof
end

