-- ==== Sys2Proof/Machine/Operands.lean ====
section
/-! DEFINITION. How operands are read: the bits of a sequence by their place in time (R6), numbers from sequences
and back (R8, R47), the logical bit of a symbol (R32, R42). -/

namespace Sys2Proof.Machine

/-- `x[i]` of R6: element `i` of a bit sequence, 0 the first in time. Beyond the length it is 0. -/
def bitAt {n : Nat} (x : Bits n) (i : Nat) : Bit := x.getMsbD i

/-- The sequence of length `n` whose element `i` is `f i`. -/
def bitsOfFn : (n : Nat) → (Nat → Bit) → Bits n
  | 0, _ => 0#0
  | n + 1, f => (bitsOfFn n f).concat (f n)

/-- `x[a..a+n-1]` of R6. -/
def slice {m : Nat} (x : Bits m) (a n : Nat) : Bits n := bitsOfFn n (fun i => bitAt x (a + i))

/-- `num` of R8 as a value of the sequence's own width: the first bit in time is the most significant. -/
def num {n : Nat} (x : Bits n) : BitVec n := x

/-- The sequence in the opposite order of time. -/
def reverseBits {n : Nat} (x : Bits n) : Bits n := bitsOfFn n (fun i => bitAt x (n - 1 - i))

/-- `numlsb` of D6: the first bit in time is the least significant. -/
def numLsb {n : Nat} (x : Bits n) : BitVec n := reverseBits x

/-- The number a field's bits stand for, under `FIELD_MSB_FIRST` (R8, R47, D6). -/
def fieldNum (cfg : Config) {n : Nat} (x : Bits n) : BitVec n :=
  if cfg.fieldMsbFirst then num x else numLsb x

/-- `bitsN` of R8, and its counterpart under `FIELD_MSB_FIRST = false`: the inverse of `fieldNum`. -/
def fieldBits (cfg : Config) {n : Nat} (v : BitVec n) : Bits n :=
  if cfg.fieldMsbFirst then v else reverseBits v

/-- The predecessor of element `i` in the differential scheme: `PARITY_INIT` for the first (R67, R71, D5). -/
def previousBit (cfg : Config) {n : Nat} (x : Bits n) (i : Nat) : Bit :=
  if i = 0 then cfg.parityInit else bitAt x (i - 1)

/-- The logical bit of a polarity bit: its complement (R32). -/
def logicalBit (pol : Bit) : Bit := !pol

end Sys2Proof.Machine
end

