-- ==== Sys2Proof/Machine/Flags.lean ====
section
/-! DEFINITION. The values that act as flags inside a step (R20): the 38 syndrome bits, `crc_ok`, and the full flag
of the stage word (R48). None of them persists. -/

namespace Sys2Proof.Machine

/-- The syndrome (R67): `s[i] = d[i] XOR d[i-1] XOR p[i]`, with `PARITY_INIT` before `d[0]`. -/
def syndrome (cfg : Config) (d p : Bits 38) : Bits 38 :=
  bitsOfFn pairs (fun i => (bitAt d i).xor ((previousBit cfg d i).xor (bitAt p i)))

/-- Under `sequential_recompute` (D4): whether the test at index `i` succeeds, `s[i]` having been cleared when the
test at `i - 1` did. -/
def firesSequential (syn : Bits 38) : Nat → Bit
  | 0 => bitAt syn 0 && bitAt syn 1
  | i + 1 => (bitAt syn (i + 1) && !firesSequential syn i) && bitAt syn (i + 2)

/-- Whether PCORR flips data bit `i`: two adjacent syndrome bits are set (R68, D4, D20), for `i = 0 .. 36`; index 37
never. At `i = 36` the pair is `(s[36], s[37])` (R68 e, R69 a); log entry 19. -/
def flips (mode : ParityMode) (syn : Bits 38) (i : Nat) : Bit :=
  decide (i < 37) &&
    match mode with
    | .twoPass => bitAt syn i && bitAt syn (i + 1)
    | .sequentialRecompute => firesSequential syn i

/-- The syndrome bits after PCORR: untouched under `two_pass` (R68 b); under `sequential_recompute` every bit that
follows a flip is cleared (D4). -/
def syndromeAfter (mode : ParityMode) (syn : Bits 38) : Bits 38 :=
  match mode with
  | .twoPass => syn
  | .sequentialRecompute =>
    bitsOfFn pairs (fun i => bitAt syn i && !(decide (0 < i) && flips mode syn (i - 1)))

/-- `crc_ok` (R81): equality of two 10-bit integers. -/
def crcMatches (crcCalc crc : BitVec 10) : Bit := crcCalc == crc

/-- The full flag of the stage word (R48): the buffer holds a whole word. -/
def wordComplete (cnt : Nat) : Bit := cnt == wordBits

end Sys2Proof.Machine
end

