-- ==== Sys2Proof/Machine/State.lean ====
section
/-! DEFINITION. The state: the block's five components (R12), the values of a step in progress (R19), the instance
parameters (R5, R22) and the ports (R27); reset (R24). -/

namespace Sys2Proof.Machine

/-- How a step can stop with a fault: in no way. "No condition aborts the decoder" (R49, R99), so the type has no
constructor. Log entry 14. -/
inductive Fault where
  deriving DecidableEq, Repr

/-- How an operation can be refused. Every operation of the table has a meaning, so nothing raises this. -/
inductive Refusal where
  /-- An operation whose meaning is not written; raised by an arm of `exec` only, and no arm raises it. Safe. -/
  | notModelled (mnemonic : String)
  deriving DecidableEq, Repr

/-- The word buffer: the bits appended since the last clear, oldest first, address = position (R15, R28, R31). A
cell at or above the length does not exist (U5). Log entry 5. -/
abbrev Memory := List Bit

/-- The block's complete state (R12). -/
structure Block where
  /-- BitframeSync's state (R14). -/
  mode : Mode
  /-- The word buffer (R15). -/
  buf : Memory
  /-- The fill count, equal to the length of `buf` between steps (R15). -/
  cnt : Nat
  /-- Words accepted since reset (R17, R18). -/
  valid : Nat
  /-- Words rejected since reset (R17, R18). -/
  errors : Nat
  deriving DecidableEq, Repr

/-- The values that live inside one step only (R19). -/
structure Transients where
  /-- `W`, the ControlWord (R57). -/
  word : Bits 76
  /-- `S`, the sequential layout (R61). -/
  seq : Bits 76
  /-- `d`, the received data bits (R66). -/
  d : Bits 38
  /-- `p`, the received parity bits (R66). -/
  p : Bits 38
  /-- `s`, the syndrome bits (R67). -/
  syn : Bits 38
  /-- `c`, the corrected data bits (R68). -/
  c : Bits 38
  /-- R73. -/
  id : BitVec 16
  /-- R74. -/
  g : Bit
  /-- R75. -/
  cmd : BitVec 10
  /-- The transmitted checksum (R76). -/
  crc : BitVec 10
  /-- The checksum accumulator (R79). -/
  acc : BitVec 10
  /-- The checksum shift register (R79). -/
  op : BitVec 10
  /-- `crc_calc` (R79). -/
  crcCalc : BitVec 10
  /-- `crc_ok` (R81). -/
  crcOk : Bit
  deriving DecidableEq, Repr

/-- What the transient values hold while no word is being decoded. They are gone then (R19); zeros are the model's
stand-in. DESIGN CHOICE, log entry 3. -/
def Transients.idle : Transients :=
  { word := 0#76, seq := 0#76, d := 0#38, p := 0#38, syn := 0#38, c := 0#38, id := 0#16, g := false,
    cmd := 0#10, crc := 0#10, acc := 0#10, op := 0#10, crcCalc := 0#10, crcOk := false }

/-- A decoded word (R46). -/
structure Osw where
  id : BitVec 16
  g : Bit
  cmd : BitVec 10
  crc : BitVec 10
  deriving DecidableEq, Repr

/-- The outputs of the block (R87). -/
inductive Event where
  /-- `OSW`, to the Osw consumer. -/
  | osw (o : Osw)
  /-- `CRCFAIL`, to the log sink: the counters after the increment. -/
  | crcfail (errors valid : Nat)
  deriving DecidableEq, Repr

/-- What a call returns to the environment: RATIO an exact rational (R90), the transmit-side functions a word
(R63, R71, R78, R88). Log entry 16. -/
inductive Reply where
  | ratio (q : Rat)
  | controlWord (w : Bits 76)
  | sequential (seq : Bits 76)
  | dataWord (c : Bits 38)
  deriving DecidableEq, Repr

structure State where
  /-- The instance parameters, written by no step (R22, R106). Log entry 7. -/
  cfg : Config
  /-- The block's own state (R12). -/
  block : Block
  /-- The values of the step in progress (R19). -/
  wires : Transients
  /-- What the environment has lined up, the next first (R27, R37). Log entries 1 and 2. -/
  inbox : List Request
  /-- The events emitted, the oldest first (R40, R87). Log entry 1. -/
  outbox : List Event
  /-- The values returned to the environment, the oldest first (R90). Log entry 16. -/
  replies : List Reply
  /-- How many free values have been taken: the model's own. Log entry 11. -/
  draws : Nat
  deriving DecidableEq, Repr

/-- The block right after RESET (R24, R104). -/
def Block.initial : Block := { mode := .unsynced, buf := [], cnt := 0, valid := 0, errors := 0 }

/-- The machine right after reset: the block as R24 says, the default parameters of R5, the ports empty. -/
def State.reset : State :=
  { cfg := Config.default, block := Block.initial, wires := Transients.idle, inbox := [], outbox := [],
    replies := [], draws := 0 }

/-! ## Field writes -/

def State.setBlock (s : State) (b : Block) : State := { s with block := b }
def State.setWires (s : State) (w : Transients) : State := { s with wires := w }
def State.setInbox (s : State) (q : List Request) : State := { s with inbox := q }
def State.setOutbox (s : State) (q : List Event) : State := { s with outbox := q }
def State.setReplies (s : State) (q : List Reply) : State := { s with replies := q }
def State.setDraws (s : State) (n : Nat) : State := { s with draws := n }

end Sys2Proof.Machine
end

