-- ==== Sys2Proof/Machine/Ops.lean ====
section
/-! DEFINITION. The named operations over the word buffer, the counters, the ports and the step; raising a
condition (60_exceptions.md). -/

namespace Sys2Proof.Machine

/-- The outcome of an operation of the block. -/
abbrev Outcome := Host.Outcome State Fault Refusal

/-! ## Sequencing -/

/-- Run `f` where `o` left off. -/
def andThen (o : Outcome) (f : State → Outcome) : Outcome :=
  match o with
  | .next s => f s
  | .fault r => .fault r
  | .refused r => .refused r

/-- Run operations one after another. -/
def runAll : List (State → Outcome) → State → Outcome
  | [], s => .next s
  | f :: fs, s => andThen (f s) (runAll fs)

/-! ## Free values -/

/-- Count a free value as taken when `used`. Log entry 11. -/
def drawIf (used : Bool) (s : State) : State := s.setDraws (if used then s.draws + 1 else s.draws)

/-! ## The word buffer (20_memory.md) -/

/-- The form every buffer has: at most 76 cells (R28). Equal buffers are equal lists. -/
abbrev Memory.wf (m : Memory) : Prop := m.length ≤ wordBits

/-- One cell. A cell at or above the length does not exist in the model (U5); reading it gives a free value of draw
`k`. Log entry 6. -/
def memCell (k : Nat) (m : Memory) (a : Nat) : Bit := m.getD a (Config.staleCell k a)

/-- `MemRead(a, n)` (R9). -/
def memRead (k : Nat) (m : Memory) (a n : Nat) : Bits n := bitsOfFn n (fun j => memCell k m (a + j))

/-- `MemWrite(a, 1, b)` (R9): cell `a` holds `b`, every other cell keeps its bit. The addresses are 0 to 75 (R28);
beyond them there is no cell to write, and no step tries (R29). Log entry 5. -/
def memWrite (k : Nat) (m : Memory) (a : Nat) (b : Bit) : Memory :=
  if a < wordBits then (List.range a).map (memCell k m) ++ b :: m.drop (a + 1) else m

/-- `append(b)` (R29): `MemWrite(cnt, 1, b); cnt <- cnt + 1`. -/
def append (b : Bit) (s : State) : State :=
  drawIf (decide (s.block.buf.length < s.block.cnt))
    (s.setBlock { s.block with
      buf := memWrite s.draws s.block.buf s.block.cnt b
      cnt := s.block.cnt + 1 })

/-- `buf <- [] ; cnt <- 0` (R30, R55, R57). -/
def clearBuffer (s : State) : State := s.setBlock { s.block with buf := [], cnt := 0 }

/-- `mode <- m`, the block's only control transfer (R9, R21). -/
def setMode (m : Mode) (s : State) : State := s.setBlock { s.block with mode := m }

/-- `W <- MemRead(0, 76)` (R30, R57). -/
def readWord (s : State) : State :=
  drawIf (decide (s.block.buf.length < wordBits))
    (s.setWires { s.wires with word := memRead s.draws s.block.buf 0 wordBits })

/-! ## Counters (R17) -/

/-- Whether a realisation with these parameters still agrees with the spec at this total of counted words: always
when unbounded, below `2^CNT_W` otherwise (R17, R113, U6). -/
def countsExactly (cfg : Config) (total : Nat) : Bool :=
  match cfg.cntW with
  | none => true
  | some w => decide (total < 2 ^ w)

/-- A counter holding `n` after an increment that brings the total to `total`: `n + 1` (R17), or, where the spec
leaves the realisation outside, a free value of the counter's width. Log entry 9. -/
def counterAfter (cfg : Config) (k n total : Nat) : Nat :=
  if countsExactly cfg total then n + 1
  else
    match cfg.cntW with
    | none => n + 1
    | some w => Config.counterBeyond k % 2 ^ w

/-- `valid <- valid + 1` (R82). -/
def countValid (s : State) : State :=
  let total := s.block.valid + s.block.errors + 1
  drawIf (!countsExactly s.cfg total)
    (s.setBlock { s.block with valid := counterAfter s.cfg s.draws s.block.valid total })

/-- `errors <- errors + 1` (R83). -/
def countError (s : State) : State :=
  let total := s.block.valid + s.block.errors + 1
  drawIf (!countsExactly s.cfg total)
    (s.setBlock { s.block with errors := counterAfter s.cfg s.draws s.block.errors total })

/-! ## Ports -/

/-- `emit E` (R9): the event leaves after those before it (R40). -/
def emit (e : Event) (s : State) : State := s.setOutbox (s.outbox ++ [e])

/-- Return a value to the environment. Log entry 16. -/
def reply (r : Reply) (s : State) : State := s.setReplies (s.replies ++ [r])

/-! ## Conditions (60_exceptions.md) -/

/-- The conditions that arise in the block, with what is recorded (R91, R92, R93). -/
inductive Condition where
  /-- E0: a symbol without flag while unsynchronised. -/
  | framingError
  /-- E1: the checksum did not match; the counters after the increment. -/
  | integrityError (errors valid : Nat)
  deriving DecidableEq, Repr

/-- The spec's label (R91, D11); stored nowhere. -/
def Condition.label : Condition → String
  | .framingError => "E0"
  | .integrityError _ _ => "E1"

/-- `raise X(info)` (R9, R97): append the condition's event, if it has one, and carry on. No register is saved, no
mode or mask changes, no handler runs; FramingError has no event (R92). There is nothing to return from (R98), so no
return stands beside it. -/
def raise : Condition → State → State
  | .framingError, s => s
  | .integrityError errors valid, s => emit (.crcfail errors valid) s

/-! ## The end of a step -/

/-- The values of a step are gone when the step ends (R19). -/
def endStep (s : State) : State := s.setWires Transients.idle

end Sys2Proof.Machine
end

