-- ==== Sys2Proof/Machine/Crc.lean ====
section
/-! DEFINITION. CRCGEN, CRCCHK, ACCEPT and REJECT (44_crc.md). -/

namespace Sys2Proof.Machine

/-- The two checksum registers of R79. -/
structure CrcRegs where
  acc : BitVec 10
  op : BitVec 10
  deriving DecidableEq, Repr

/-- The shift of `op` in one iteration (R79): right by one, the polynomial XORed in when the bit shifted out was
1. -/
def crcShift (lit : Literals) (op : BitVec 10) : BitVec 10 :=
  if op.getLsbD 0 then (op >>> 1) ^^^ lit.crcPoly else op >>> 1

/-- One iteration (R79): `op` first, then `acc` takes it in when the data bit is 1. -/
def crcIterate (lit : Literals) (r : CrcRegs) (b : Bit) : CrcRegs :=
  { acc := if b then r.acc ^^^ crcShift lit r.op else r.acc, op := crcShift lit r.op }

/-- The registers after the first `j` iterations over `x` (R79). -/
def crcRun (lit : Literals) {n : Nat} (x : Bits n) : Nat → CrcRegs
  | 0 => { acc := lit.crcSeedA, op := lit.crcSeedB }
  | j + 1 => crcIterate lit (crcRun lit x j) (bitAt x j)

/-- CRCGEN as a function of the 27 covered bits (R79), behind `CRC_ALGO` (D8). -/
def crcRegs (cfg : Config) (x : Bits 27) : CrcRegs :=
  match cfg.crcAlgo with
  | .accOpRightShift => crcRun cfg.lit x crcCover

/-- `CRCGEN(x)` (R79). -/
def crcgen (cfg : Config) (x : Bits 27) : BitVec 10 := (crcRegs cfg x).acc

/-- `c[0..26]`, the bits the checksum covers (R79). -/
def coveredBits (c : Bits 38) : Bits 27 := slice c 0 crcCover

/-- What CRCGEN does to the values of the step (R79). -/
def crcgenStage (cfg : Config) (x : Transients) : Transients :=
  let r := crcRegs cfg (coveredBits x.c)
  { x with acc := r.acc, op := r.op, crcCalc := r.acc }

/-- What CRCCHK does to the values of the step (R81). -/
def crcchkStage (x : Transients) : Transients := { x with crcOk := crcMatches x.crcCalc x.crc }

/-- CRCGEN (R79). -/
def execCrcgen (s : State) : Outcome := .next (s.setWires (crcgenStage s.cfg s.wires))

/-- CRCCHK (R81). -/
def execCrcchk (s : State) : Outcome := .next (s.setWires (crcchkStage s.wires))

/-- ACCEPT (R82): count, then emit the four fields. -/
def execAccept (s : State) : Outcome :=
  .next (emit (.osw ⟨s.wires.id, s.wires.g, s.wires.cmd, s.wires.crc⟩) (countValid s))

/-- REJECT (R83): count, then raise IntegrityError with the counters after the increment. -/
def execReject (s : State) : Outcome :=
  let t := countError s
  .next (raise (.integrityError t.block.errors t.block.valid) t)

end Sys2Proof.Machine
end

