-- ==== Sys2Proof/Machine/Deinterleave.lean ====
section
/-! DEFINITION. DEINT and INTLV (41_deinterleave.md). -/

namespace Sys2Proof.Machine

/-- The index in a word of four interleaved lanes of the bit at place `n` of the four lanes laid end to end:
`4*(n mod 19) + (n div 19)` (R61). -/
def interleavedIndex (n : Nat) : Nat := lanes * (n % laneBits) + n / laneBits

/-- The other way: `19*(j mod 4) + (j div 4)` (R63). -/
def sequentialIndex (j : Nat) : Nat := laneBits * (j % lanes) + j / lanes

/-- DEINT as a function (R61, D3): `lane4` is `S[19k+m] = W[4m+k]`, `block19` is `S[4m+k] = W[19k+m]`. -/
def deinterleave (map : DeintMap) (w : Bits 76) : Bits 76 :=
  match map with
  | .lane4 => bitsOfFn wordBits (fun n => bitAt w (interleavedIndex n))
  | .block19 => bitsOfFn wordBits (fun n => bitAt w (sequentialIndex n))

/-- INTLV as a function (R63, D3): the inverse permutation. -/
def interleave (map : DeintMap) (seq : Bits 76) : Bits 76 :=
  match map with
  | .lane4 => bitsOfFn wordBits (fun j => bitAt seq (sequentialIndex j))
  | .block19 => bitsOfFn wordBits (fun j => bitAt seq (interleavedIndex j))

/-- What DEINT does to the values of the step (R61). -/
def deintStage (cfg : Config) (x : Transients) : Transients :=
  { x with seq := deinterleave cfg.deintMap x.word }

/-- DEINT (R61). -/
def execDeint (s : State) : Outcome := .next (s.setWires (deintStage s.cfg s.wires))

/-- INTLV (R63): a pure function; its value is returned. -/
def execIntlv (seq : Bits 76) (s : State) : Outcome :=
  .next (reply (.controlWord (interleave s.cfg.deintMap seq)) s)

end Sys2Proof.Machine
end

