-- ==== Sys2Proof/Machine/FieldExtract.lean ====
section
/-! DEFINITION. XTR.ID, XTR.G, XTR.CMD, XTR.CRC and FPACK (43_field_extract.md). Each field is assembled as R47
says: its index range of `c`, read as a number, XOR its mask. -/

namespace Sys2Proof.Machine

/-- `c[0..15]` XOR `ID_XOR` (R73). -/
def fieldId (cfg : Config) (c : Bits 38) : BitVec 16 := fieldNum cfg (slice c 0 idW) ^^^ cfg.lit.idXor

/-- `c[16]` XOR `G_XOR` (R74). -/
def fieldG (cfg : Config) (c : Bits 38) : Bit := (bitAt c 16).xor cfg.lit.gXor

/-- `c[17..26]` XOR `CMD_XOR` (R75). -/
def fieldCmd (cfg : Config) (c : Bits 38) : BitVec 10 := fieldNum cfg (slice c 17 cmdW) ^^^ cfg.lit.cmdXor

/-- `c[27..36]` XOR `CRC_FIELD_XOR` (R76). -/
def fieldCrc (cfg : Config) (c : Bits 38) : BitVec 10 := fieldNum cfg (slice c 27 crcW) ^^^ cfg.crcFieldXor

/-- `c[0..26]` of a data word that carries the fields (R78). -/
def packCovered (cfg : Config) (id : BitVec 16) (g : Bit) (cmd : BitVec 10) : Bits 27 :=
  bitsOfFn crcCover (fun t =>
    if t < 16 then bitAt (fieldBits cfg (id ^^^ cfg.lit.idXor)) t
    else if t = 16 then g.xor cfg.lit.gXor
    else bitAt (fieldBits cfg (cmd ^^^ cfg.lit.cmdXor)) (t - 17))

/-- FPACK as a function (R78); bit 37 is `u`, or `ENC_U` where `u` is absent (D19). -/
def pack (cfg : Config) (id : BitVec 16) (g : Bit) (cmd : BitVec 10) (u : Option Bit) : Bits 38 :=
  let covered := packCovered cfg id g cmd
  let check := fieldBits cfg (crcgen cfg covered ^^^ cfg.crcFieldXor)
  bitsOfFn pairs (fun t =>
    if t < 27 then bitAt covered t
    else if t < 37 then bitAt check (t - 27)
    else u.getD cfg.encU)

/-- What XTR.ID does to the values of the step (R73). -/
def xtrIdStage (cfg : Config) (x : Transients) : Transients := { x with id := fieldId cfg x.c }

/-- What XTR.G does to the values of the step (R74). -/
def xtrGStage (cfg : Config) (x : Transients) : Transients := { x with g := fieldG cfg x.c }

/-- What XTR.CMD does to the values of the step (R75). -/
def xtrCmdStage (cfg : Config) (x : Transients) : Transients := { x with cmd := fieldCmd cfg x.c }

/-- What XTR.CRC does to the values of the step (R76). -/
def xtrCrcStage (cfg : Config) (x : Transients) : Transients := { x with crc := fieldCrc cfg x.c }

/-- XTR.ID (R73). -/
def execXtrId (s : State) : Outcome := .next (s.setWires (xtrIdStage s.cfg s.wires))

/-- XTR.G (R74). -/
def execXtrG (s : State) : Outcome := .next (s.setWires (xtrGStage s.cfg s.wires))

/-- XTR.CMD (R75). -/
def execXtrCmd (s : State) : Outcome := .next (s.setWires (xtrCmdStage s.cfg s.wires))

/-- XTR.CRC (R76). -/
def execXtrCrc (s : State) : Outcome := .next (s.setWires (xtrCrcStage s.cfg s.wires))

/-- FPACK (R78): a pure function; its value is returned. -/
def execFpack (id : BitVec 16) (g : Bit) (cmd : BitVec 10) (u : Option Bit) (s : State) : Outcome :=
  .next (reply (.dataWord (pack s.cfg id g cmd u)) s)

end Sys2Proof.Machine
end

