-- ==== Sys2Proof/Machine/Parity.lean ====
section
/-! DEFINITION. SPLIT, SYND, PCORR and PENC (42_parity.md). -/

namespace Sys2Proof.Machine

/-- `d[i] = S[2i]` (R66). -/
def dataBits (seq : Bits 76) : Bits 38 := bitsOfFn pairs (fun i => bitAt seq (2 * i))

/-- `p[i] = S[2i+1]` (R66). -/
def parityBits (seq : Bits 76) : Bits 38 := bitsOfFn pairs (fun i => bitAt seq (2 * i + 1))

/-- PCORR as a function (R68): flip the data bits the syndrome points at. -/
def correct (mode : ParityMode) (d syn : Bits 38) : Bits 38 :=
  bitsOfFn pairs (fun i => (bitAt d i).xor (flips mode syn i))

/-- PENC as a function (R71): each data bit followed by its XOR with its predecessor. -/
def addParity (cfg : Config) (c : Bits 38) : Bits 76 :=
  bitsOfFn wordBits (fun n =>
    if n % 2 = 0 then bitAt c (n / 2) else (bitAt c (n / 2)).xor (previousBit cfg c (n / 2)))

/-- What SPLIT does to the values of the step (R66). -/
def splitStage (x : Transients) : Transients := { x with d := dataBits x.seq, p := parityBits x.seq }

/-- What SYND does to the values of the step (R67). -/
def syndStage (cfg : Config) (x : Transients) : Transients := { x with syn := syndrome cfg x.d x.p }

/-- What PCORR does to the values of the step (R68, D4). Under `sequential_recompute` the syndrome bits it clears
are left cleared (log entry 17). -/
def pcorrStage (cfg : Config) (x : Transients) : Transients :=
  { x with c := correct cfg.parityMode x.d x.syn, syn := syndromeAfter cfg.parityMode x.syn }

/-- SPLIT (R66). -/
def execSplit (s : State) : Outcome := .next (s.setWires (splitStage s.wires))

/-- SYND (R67). -/
def execSynd (s : State) : Outcome := .next (s.setWires (syndStage s.cfg s.wires))

/-- PCORR (R68). -/
def execPcorr (s : State) : Outcome := .next (s.setWires (pcorrStage s.cfg s.wires))

/-- PENC (R71): a pure function; its value is returned. -/
def execPenc (c : Bits 38) (s : State) : Outcome :=
  .next (reply (.sequential (addParity s.cfg c)) s)

end Sys2Proof.Machine
end

