-- ==== Sys2Proof/Machine/WordDecoder.lean ====
section
/-! DEFINITION. DECODE, the pure function Decode76 it is built on, and ENCODE (45_word_pipeline.md R85, R88). -/

namespace Sys2Proof.Machine

/-- What Decode76 returns (R85): the four fields and `crc_ok`. -/
structure Decoded where
  osw : Osw
  crcOk : Bit
  deriving DecidableEq, Repr

/-- The data bits of a ControlWord after DEINT, SPLIT, SYND and PCORR (R85). -/
def correctedBits (cfg : Config) (w : Bits 76) : Bits 38 :=
  let seq := deinterleave cfg.deintMap w
  correct cfg.parityMode (dataBits seq) (syndrome cfg (dataBits seq) (parityBits seq))

/-- The fields and the verdict of corrected data bits (R73 to R81). -/
def readDataWord (cfg : Config) (c : Bits 38) : Decoded :=
  { osw := ⟨fieldId cfg c, fieldG cfg c, fieldCmd cfg c, fieldCrc cfg c⟩
    crcOk := crcMatches (crcgen cfg (coveredBits c)) (fieldCrc cfg c) }

/-- `Decode76` (R85): the part of DECODE before the choice. -/
def decode76 (cfg : Config) (w : Bits 76) : Decoded := readDataWord cfg (correctedBits cfg w)

/-- The last place of the stage sequence (R48, R85): ACCEPT when `crc_ok` is 1, REJECT otherwise. -/
def acceptOrReject (s : State) : Outcome := if s.wires.crcOk then execAccept s else execReject s

/-- DECODE (R85): the stages in the order of the text, then the choice. -/
def execDecode (s : State) : Outcome :=
  runAll [execDeint, execSplit, execSynd, execPcorr, execXtrId, execXtrG, execXtrCmd, execXtrCrc,
    execCrcgen, execCrcchk, acceptOrReject] s

/-- ENCODE as a function (R88): `INTLV(PENC(FPACK(id, g, cmd, u)))`. -/
def encodeWord (cfg : Config) (id : BitVec 16) (g : Bit) (cmd : BitVec 10) (u : Option Bit) : Bits 76 :=
  interleave cfg.deintMap (addParity cfg (pack cfg id g cmd u))

/-- ENCODE (R88): a pure function; its value is returned. -/
def execEncode (id : BitVec 16) (g : Bit) (cmd : BitVec 10) (u : Option Bit) (s : State) : Outcome :=
  .next (reply (.controlWord (encodeWord s.cfg id g cmd u)) s)

end Sys2Proof.Machine
end

