-- ==== Sys2Proof/Machine/BitframeSync.lean ====
section
/-! DEFINITION. SCAN, ACQ, SHIFT and WORD (40_bitframe_sync.md). -/

namespace Sys2Proof.Machine

/-- SCAN (R54): raise FramingError and nothing else; `pol` has no effect. -/
def execScan (_pol : Bit) (s : State) : Outcome := .next (raise .framingError s)

/-- ACQ (R55): enter TRACKING, clear the buffer, and append the flagged symbol's bit if `SYNC_SYMBOL_IS_DATA`
(D1, C5). -/
def execAcq (pol : Bit) (s : State) : Outcome :=
  let t := clearBuffer (setMode .tracking s)
  .next (if s.cfg.syncSymbolIsData then append (logicalBit pol) t else t)

/-- WORD (R57): take the 76 bits, clear the buffer, return to UNSYNCED, decode. -/
def execWord (s : State) : Outcome :=
  execDecode (setMode .unsynced (clearBuffer (readWord s)))

/-- SHIFT (R56): append the bit, and run WORD when that made `cnt` 76; `sync` is ignored (D2). -/
def execShift (_sync pol : Bit) (s : State) : Outcome :=
  let t := append (logicalBit pol) s
  if wordComplete t.block.cnt then execWord t else .next t

end Sys2Proof.Machine
end

