-- ==== Sys2Proof/Machine/Environment.lean ====
section
/-! DEFINITION. The step one symbol causes (R86), and what the environment invokes between steps: RESET (R104) and
RATIO (R90). -/

namespace Sys2Proof.Machine

/-- SYM (R86): `Step`. The values of the step are gone at its end (R19). -/
def execSym (sy : Symbol) (s : State) : Outcome :=
  andThen
    (match s.block.mode with
      | .unsynced => if sy.sync then execAcq sy.pol s else execScan sy.pol s
      | .tracking => execShift sy.sync sy.pol s)
    (fun t => .next (endStep t))

/-- RESET (R104): all five components at once (D26). The parameters stay, being fixed for the life of the instance
(R106); no event (log entry 15). -/
def execReset (s : State) : Outcome := .next (s.setBlock Block.initial)

/-- The error ratio (R90), exact; 0 before any word (D24). -/
def errorRatio (valid errors : Nat) : Rat :=
  if valid + errors = 0 then 0 else (errors : Rat) / ((valid + errors : Nat) : Rat)

/-- RATIO (R90): return the ratio, change nothing of the block. Where a `CNT_W`-bit realisation is outside the spec
(U6, R113) the value is free. Log entry 10. -/
def execRatio (s : State) : Outcome :=
  let exact := countsExactly s.cfg (s.block.valid + s.block.errors)
  .next (drawIf (!exact)
    (reply (.ratio (if exact then errorRatio s.block.valid s.block.errors
      else Config.ratioBeyond s.draws)) s))

end Sys2Proof.Machine
end

