-- ==== Sys2Proof/Machine/Dispatch.lean ====
section
/-! DEFINITION. One arm per constructor: the operation's meaning. -/

namespace Sys2Proof.Machine

def exec (i : Instr) (s : State) : Host.Outcome State Fault Refusal :=
  match i with
  | .sym sy => Sys2Proof.Machine.execSym sy s
  | .scan pol => Sys2Proof.Machine.execScan pol s
  | .acq pol => Sys2Proof.Machine.execAcq pol s
  | .shift sync pol => Sys2Proof.Machine.execShift sync pol s
  | .word => Sys2Proof.Machine.execWord s
  | .deint => Sys2Proof.Machine.execDeint s
  | .split => Sys2Proof.Machine.execSplit s
  | .synd => Sys2Proof.Machine.execSynd s
  | .pcorr => Sys2Proof.Machine.execPcorr s
  | .xtrId => Sys2Proof.Machine.execXtrId s
  | .xtrG => Sys2Proof.Machine.execXtrG s
  | .xtrCmd => Sys2Proof.Machine.execXtrCmd s
  | .xtrCrc => Sys2Proof.Machine.execXtrCrc s
  | .crcgen => Sys2Proof.Machine.execCrcgen s
  | .crcchk => Sys2Proof.Machine.execCrcchk s
  | .accept => Sys2Proof.Machine.execAccept s
  | .reject => Sys2Proof.Machine.execReject s
  | .decode => Sys2Proof.Machine.execDecode s
  | .reset => Sys2Proof.Machine.execReset s
  | .ratio => Sys2Proof.Machine.execRatio s
  | .intlv seq => Sys2Proof.Machine.execIntlv seq s
  | .penc c => Sys2Proof.Machine.execPenc c s
  | .fpack id g cmd u => Sys2Proof.Machine.execFpack id g cmd u s
  | .encode id g cmd u => Sys2Proof.Machine.execEncode id g cmd u s

end Sys2Proof.Machine
end

