-- ==== Sys2Proof/Decode.lean ====
section
/-! DEFINITION. The operation map of 30_encoding.md: how a symbol (R42), a dispatch word and a stage word (R48)
select an operation; what a request selects; and the encoder, written from the same tables. -/

namespace Sys2Proof

/-! ## The three encodings as words -/

/-- The logical number of a mode: `UNSYNCED = 0`, `TRACKING = 1` (R14, R48). -/
def Mode.toBit : Mode → Bit
  | .unsynced => false
  | .tracking => true

/-- The mode a bit stands for (R14). -/
def modeOfBit (b : Bit) : Mode := if b then .tracking else .unsynced

/-- The 2-bit symbol value: `sym[1] = sync`, `sym[0] = pol` (R42). -/
def symbolWord (sy : Symbol) : BitVec 2 := BitVec.ofBool sy.sync ++ BitVec.ofBool sy.pol

/-- The symbol a 2-bit value stands for (R42). -/
def symbolOfWord (v : BitVec 2) : Symbol := ⟨v.getLsbD 1, v.getLsbD 0⟩

/-- The dispatch word: `dw[2] = mode`, `dw[1] = sync`, `dw[0] = pol` (R48). -/
def dispatchWord (mode : Mode) (sy : Symbol) : BitVec 3 := BitVec.ofBool mode.toBit ++ symbolWord sy

/-- The stage word: `sw[1]` = the append of this step made `cnt = 76`, `sw[0] = crc_ok` (R48). -/
def stageWord (full crcOk : Bit) : BitVec 2 := BitVec.ofBool full ++ BitVec.ofBool crcOk

/-- The ways in which an operation is selected (R48): by a symbol, by the dispatch word, by the place in the
stage sequence with the stage word, or by the environment's call, which has no bits. -/
inductive Code where
  | sym (v : BitVec 2)
  | dispatch (dw : BitVec 3)
  | stage (place : Nat) (sw : BitVec 2)
  | call (c : EnvCall)
  deriving DecidableEq, Repr

/-- Why a code selects no operation. -/
inductive DecodeError where
  /-- The stage word is `0x`: no stage operation runs (R48). -/
  | noStageRuns
  /-- The stage sequence has twelve places, 1 to 12 (R48). -/
  | noSuchStage
  /-- No byte was given. -/
  | noBytes
  /-- The bytes hold more than the three bits of a dispatch word (R48). -/
  | notADispatchWord
  deriving DecidableEq, Repr

/-! ## The decoder -/

/-- SYM, the one primitive of the stimulus notation (R42, R52). -/
def decodeSym (v : BitVec 2) : Instr := .sym (symbolOfWord v)

/-- The operation a dispatch word selects, by the mask and pattern of each row of R48's table. -/
def decodeDispatch (dw : BitVec 3) : Instr :=
  if dw &&& 0b110#3 = 0b000#3 then .scan (dw.getLsbD 0)
  else if dw &&& 0b110#3 = 0b010#3 then .acq (dw.getLsbD 0)
  else .shift (dw.getLsbD 1) (dw.getLsbD 0)

/-- The operation at a place of the stage sequence (R48). -/
def decodeStage (place : Nat) (sw : BitVec 2) : Except DecodeError Instr :=
  if sw.getLsbD 1 then
    match place with
    | 1 => .ok .word
    | 2 => .ok .deint
    | 3 => .ok .split
    | 4 => .ok .synd
    | 5 => .ok .pcorr
    | 6 => .ok .xtrId
    | 7 => .ok .xtrG
    | 8 => .ok .xtrCmd
    | 9 => .ok .xtrCrc
    | 10 => .ok .crcgen
    | 11 => .ok .crcchk
    | 12 => .ok (if sw.getLsbD 0 then .accept else .reject)
    | _ => .error .noSuchStage
  else .error .noStageRuns

/-- The operation a call names (R48). -/
def decodeCall : EnvCall → Instr
  | .reset => .reset
  | .ratio => .ratio
  | .intlv seq => .intlv seq
  | .penc c => .penc c
  | .fpack id g cmd u => .fpack id g cmd u
  | .encode id g cmd u => .encode id g cmd u

/-- The decoder, total on every code. -/
def decode : Code → Except DecodeError Instr
  | .sym v => .ok (decodeSym v)
  | .dispatch dw => .ok (decodeDispatch dw)
  | .stage place sw => decodeStage place sw
  | .call c => .ok (decodeCall c)

/-- The operation a request selects: a symbol through the dispatch word it forms with the mode, a call by its
name (R48). -/
def decodeRequest (mode : Mode) : Request → Instr
  | .symbol sy => decodeDispatch (dispatchWord mode sy)
  | .call c => decodeCall c

/-- A dispatch word given as bytes: three bits in the first byte, nothing elsewhere. -/
def decodeBytes : List (BitVec 8) → Except DecodeError Instr
  | [] => .error .noBytes
  | b :: rest =>
    if b.toNat < 8 && rest.all (fun x => x == 0#8) then .ok (decodeDispatch (b.setWidth 3))
    else .error .notADispatchWord

/-- The lowest `n` bytes of `w`, the least significant first. -/
def layBytes : Nat → Nat → List (BitVec 8)
  | 0, _ => []
  | n + 1, w => BitVec.ofNat 8 w :: layBytes n (w / 256)

/-- What the decoder reads from an opcode-table word of `nbits` bits: a dispatch word, the only word that selects
what a step does (R48). The stage words of the table are numerically among the dispatch words (log entry 12). -/
def decodeTableWord (nbits w : Nat) : Option Instr :=
  match decodeBytes (layBytes ((nbits + 7) / 8) w) with
  | .ok i => some i
  | .error _ => none

/-! ## The encoder -/

/-- The code that selects an operation: the patterns of R42 and R48, a bit that does not take part in the
selection being 0. DECODE has no encoding of its own: WORD calls it (R57, R85). -/
def encode : Instr → Option Code
  | .sym sy => some (.sym (BitVec.ofBool sy.sync ++ BitVec.ofBool sy.pol))
  | .scan pol => some (.dispatch (0b00#2 ++ BitVec.ofBool pol))
  | .acq pol => some (.dispatch (0b01#2 ++ BitVec.ofBool pol))
  | .shift sync pol => some (.dispatch (0b1#1 ++ BitVec.ofBool sync ++ BitVec.ofBool pol))
  | .word => some (.stage 1 0b10#2)
  | .deint => some (.stage 2 0b10#2)
  | .split => some (.stage 3 0b10#2)
  | .synd => some (.stage 4 0b10#2)
  | .pcorr => some (.stage 5 0b10#2)
  | .xtrId => some (.stage 6 0b10#2)
  | .xtrG => some (.stage 7 0b10#2)
  | .xtrCmd => some (.stage 8 0b10#2)
  | .xtrCrc => some (.stage 9 0b10#2)
  | .crcgen => some (.stage 10 0b10#2)
  | .crcchk => some (.stage 11 0b10#2)
  | .accept => some (.stage 12 0b11#2)
  | .reject => some (.stage 12 0b10#2)
  | .decode => none
  | .reset => some (.call .reset)
  | .ratio => some (.call .ratio)
  | .intlv seq => some (.call (.intlv seq))
  | .penc c => some (.call (.penc c))
  | .fpack id g cmd u => some (.call (.fpack id g cmd u))
  | .encode id g cmd u => some (.call (.encode id g cmd u))

end Sys2Proof
end

