-- ==== Sys2Proof/Machine/Fetch.lean ====
section
/-! DEFINITION. What a step takes from the input port, and how a table word is put there. The block fetches no
instructions (R21, R39): what it does next is selected by its mode and the next symbol (R48). -/

namespace Sys2Proof.Machine

/-- The next request and the state in which it has been taken from the port (R37: in order, one at a time);
nothing when the stream has paused (R23). -/
def fetch (s : State) : Option (Request × State) :=
  match s.inbox with
  | [] => none
  | r :: rest => some (r, s.setInbox rest)

/-- `s` with a dispatch word placed where the step finds it: its mode bit in `mode`, its symbol next at the port
(R48). A number that is no dispatch word is placed nowhere. Log entries 2 and 12. -/
def placeDispatchWord (s : State) (w : Nat) : State :=
  if w < 8 then
    (setMode (modeOfBit (w.testBit 2)) s).setInbox (.symbol ⟨w.testBit 1, w.testBit 0⟩ :: s.inbox)
  else s

end Sys2Proof.Machine
end

