-- ==== Sys2Proof/Machine/Step.lean ====
section
/-! DEFINITION. One step: take the next request, decode it, run it, end the step (R11, R48, R86). -/

namespace Sys2Proof.Machine

/-- One step. With nothing at the port the machine waits and holds its state (R23, R59, U14). -/
def step (s : State) : Host.Outcome State Fault Refusal :=
  match fetch s with
  | none => .next s
  | some (r, t) => andThen (exec (decodeRequest s.block.mode r) t) (fun u => .next (endStep u))

/-- `s` with the table word placed so that the next step runs the operation it selects. -/
def State.withFetchWord (s : State) (_nbits w : Nat) : State := placeDispatchWord s w

end Sys2Proof.Machine
end

