-- ==== Sys2Proof/Machine/Stimulus.lean ====
section
/-! DEFINITION. The stimulus notation of R52 and the event lines of R53: how test programs are written down. Nothing
the block holds or does. -/

namespace Sys2Proof.Machine

/-- A line of a program (R52). -/
inductive StimulusLine where
  /-- `SYM f,p`. -/
  | sym (f p : Bit)
  /-- `IDLE n,p`. -/
  | idle (n : Nat) (p : Bit)
  /-- `MARK b`. -/
  | mark (b : Bit)
  /-- `BITS b0b1...bn`. -/
  | bits (bs : List Bit)
  /-- `WORD h`, `h` given as the word it stands for. -/
  | word (w : Bits 76)
  /-- `WORDX h`. -/
  | wordx (w : Bits 76)
  deriving DecidableEq, Repr

/-- The symbol with flag `f` whose logical bit is `b` (R32, R52). -/
def symbolOfLogical (f b : Bit) : Symbol := ⟨f, logicalBit b⟩

/-- The bits of a ControlWord in order of time. -/
def wordBitList (w : Bits 76) : List Bit := (List.range wordBits).map (bitAt w)

/-- The symbols that deliver a list of bits, the flag on the first (R52: `MARK` then `BITS`). -/
def markedSymbols : List Bit → List Symbol
  | [] => []
  | b :: bs => symbolOfLogical true b :: bs.map (symbolOfLogical false)

/-- What a line expands to (R52). -/
def StimulusLine.expand : StimulusLine → List Symbol
  | .sym f p => [⟨f, p⟩]
  | .idle n p => List.replicate n ⟨false, p⟩
  | .mark b => [symbolOfLogical true b]
  | .bits bs => bs.map (symbolOfLogical false)
  | .word w => markedSymbols (wordBitList w)
  | .wordx w => ⟨true, true⟩ :: (wordBitList w).map (symbolOfLogical false)

/-- A program: its lines expanded in order (R52). -/
def expandProgram (p : List StimulusLine) : List Symbol := p.flatMap StimulusLine.expand

/-- A stream as digits, one a symbol (R52). -/
def digitsOfSymbols (l : List Symbol) : List Nat := l.map (fun sy => (symbolWord sy).toNat)

/-- The stream a list of digits stands for; a digit above 3 is none. -/
def symbolsOfDigits : List Nat → Option (List Symbol)
  | [] => some []
  | n :: ns =>
    if n < 4 then (symbolsOfDigits ns).map (fun l => symbolOfWord (BitVec.ofNat 2 n) :: l) else none

/-- The machine with a stream of symbols lined up after what it has. -/
def State.deliver (s : State) (l : List Symbol) : State := s.setInbox (s.inbox ++ l.map Request.symbol)

/-- A line `t: EVENT` (R53): `t` is the 0-based index of the symbol whose step emitted the event. -/
structure TraceLine where
  t : Nat
  event : Event
  deriving DecidableEq, Repr

/-- The state a symbol step leaves (R86). It is total (R99); the state itself stands in for the outcomes that
do not occur. -/
def symbolNext (sy : Symbol) (s : State) : State :=
  match execSym sy s with
  | .next t => t
  | .fault _ => s
  | .refused _ => s

/-- The event lines of a run over `l`, the first symbol having index `t` (R53, R86). -/
def traceFrom (t : Nat) (s : State) : List Symbol → List TraceLine
  | [] => []
  | sy :: rest =>
    ((symbolNext sy s).outbox.drop s.outbox.length).map (fun e => ⟨t, e⟩) ++
      traceFrom (t + 1) (symbolNext sy s) rest

/-- The percentage a sink forms from a CRCFAIL event, exactly (R83, R87). -/
def Event.percentage : Event → Option Rat
  | .osw _ => none
  | .crcfail errors valid => some (100 * errorRatio valid errors)

end Sys2Proof.Machine
end

