-- ==== Sys2Proof/Safety.lean ====
section
/-! DEFINITION. What holds of a block between steps, and the words statements use for what a completed word leaves
and for channel errors. -/

namespace Sys2Proof.Machine

/-- The invariants of R15 and R16 between steps: `cnt` is the length of the buffer and at most 75, UNSYNCED has
an empty buffer, and TRACKING holds at least the flagged symbol's bit when that bit is data. -/
abbrev Block.Inv (cfg : Config) (b : Block) : Prop :=
  b.cnt = b.buf.length ∧ b.cnt ≤ 75 ∧ (b.mode = .unsynced → b.cnt = 0) ∧
    (b.mode = .tracking → cfg.syncSymbolIsData = true → 1 ≤ b.cnt)

/-- Between steps the block keeps its invariants (R16) and no value of a step survives (R19); that those read as zeros
is log entry 3. -/
abbrev State.Inv (s : State) : Prop := Block.Inv s.cfg s.block ∧ s.wires = Transients.idle

/-- One more word can be counted exactly as the spec says: always at the default, below `2^CNT_W` in a finite
realisation (R17, R113). -/
abbrev State.CanCount (s : State) : Prop := countsExactly s.cfg (s.block.valid + s.block.errors + 1) = true

/-- The block after a completed word with verdict `ok` (R57, R82, R83). -/
def Block.afterWord (b : Block) (ok : Bit) : Block :=
  { mode := .unsynced, buf := [], cnt := 0
    valid := if ok then b.valid + 1 else b.valid
    errors := if ok then b.errors else b.errors + 1 }

/-- The event a completed word causes (R82, R83, R87). -/
def Block.wordEvent (b : Block) (d : Decoded) : Event :=
  if d.crcOk then .osw d.osw else .crcfail (b.errors + 1) b.valid

/-- The ControlWord made of a list of bits in order of time. -/
def wordOfBits (l : List Bit) : Bits 76 := bitsOfFn 76 (fun j => l.getD j false)

/-- The pattern with exactly the elements of `l` set: a channel error at those places. -/
def errorsAt (n : Nat) (l : List Nat) : Bits n := bitsOfFn n (fun i => l.contains i)

/-- How many of the first 37 bits of two data words differ (R84). -/
def differences (c c' : Bits 38) : Nat := ((List.range 37).filter (fun i => bitAt c i != bitAt c' i)).length

end Sys2Proof.Machine
end

