-- ==== Sys2Proof/WellFormed.lean ====
section
/-! DEFINITION. What is checked before a run: the geometry R4 asks for, the parameter values R5 defines, and
(nothing to refuse, R49) the operations. -/

namespace Sys2Proof

/-- The sizes of R4 as data, so that their consistency is a check that can fail. -/
structure Geometry where
  wordBits : Nat
  lanes : Nat
  laneBits : Nat
  pairs : Nat
  idW : Nat
  gW : Nat
  cmdW : Nat
  crcW : Nat
  crcCover : Nat
  deriving DecidableEq, Repr

/-- The values R4 gives, which are the ones the model is built with. -/
def Geometry.sz : Geometry :=
  { wordBits := Sys2Proof.wordBits, lanes := Sys2Proof.lanes, laneBits := Sys2Proof.laneBits,
    pairs := Sys2Proof.pairs, idW := Sys2Proof.idW, gW := 1, cmdW := Sys2Proof.cmdW,
    crcW := Sys2Proof.crcW, crcCover := Sys2Proof.crcCover }

/-- "Consistency the values must keep" (R4). -/
def Geometry.wellFormed (z : Geometry) : Bool :=
  z.lanes * z.laneBits == z.wordBits && z.wordBits == 2 * z.pairs &&
  z.idW + z.gW + z.cmdW + z.crcW + 1 == z.pairs && z.idW + z.gW + z.cmdW == z.crcCover

/-- The literals are those of R4, the only set of values the spec gives. -/
def Literals.wellFormed (l : Literals) : Bool := l == Literals.sz

/-- The value of `CRC_FIELD_XOR` is one the spec defines (R5, D7). -/
def Config.crcFieldXorDefined (cfg : Config) : Bool :=
  cfg.crcFieldXor == 0x3FF#10 || cfg.crcFieldXor == 0x000#10 || cfg.crcFieldXor == 0x32A#10

/-- The configuration is one the spec defines (R4, R5). Every value of the other parameters' types is defined. -/
def Config.wellFormed (cfg : Config) : Bool :=
  cfg.crcFieldXorDefined && cfg.lit.wellFormed

/-- Every operation with operands of its widths is well formed: "Nothing is illegal" (R49). -/
def Instr.wellFormed : Instr → Bool
  | .sym _ => true
  | .scan _ => true
  | .acq _ => true
  | .shift _ _ => true
  | .word => true
  | .deint => true
  | .split => true
  | .synd => true
  | .pcorr => true
  | .xtrId => true
  | .xtrG => true
  | .xtrCmd => true
  | .xtrCrc => true
  | .crcgen => true
  | .crcchk => true
  | .accept => true
  | .reject => true
  | .decode => true
  | .reset => true
  | .ratio => true
  | .intlv _ => true
  | .penc _ => true
  | .fpack _ _ _ _ => true
  | .encode _ _ _ _ => true

end Sys2Proof
end

