-- ==== Sys2Proof/Certificates/Slice0/Obligations.lean ====
section
/-! DEFINITION. The statements for the provers. Where one says `exec i s = .next t` with `t` written as an update of
`s`, every field not named in the update is unchanged: that is the frame. -/

open Sys2Proof Sys2Proof.Machine

/-! ## Reset and parameters -/

/-- R24: what the block holds after reset. -/
def Obligations.ResetLeavesInitialBlock : Prop :=
  State.reset.block = { mode := .unsynced, buf := [], cnt := 0, valid := 0, errors := 0 }

/-- R104: RESET writes the five components in any state, emits no event, and RATIO then returns 0. That the parameters
and the ports stay is log entry 15. -/
def Obligations.ResetWritesAllFiveComponents : Prop :=
  ∀ s : State, ∃ t : State,
    exec .reset s = .next t ∧
    t = { s with block := { mode := .unsynced, buf := [], cnt := 0, valid := 0, errors := 0 } } ∧
    exec .ratio t = .next { t with replies := t.replies ++ [.ratio 0] }

/-- R4, R5: the machine after reset has the decided defaults and SZ's literals (that reset carries them is the model's
choice, log entry 7), and those are a configuration the spec defines. -/
def Obligations.ResetHasDefaultParameters : Prop :=
  State.reset.cfg =
    { syncSymbolIsData := true, deintMap := .lane4, parityMode := .twoPass, parityInit := false,
      fieldMsbFirst := true, crcFieldXor := 0x3FF#10, crcAlgo := .accOpRightShift, cntW := none,
      encU := false,
      lit := { idXor := 0x33C7#16, gXor := true, cmdXor := 0x32A#10, crcSeedA := 0x393#10,
               crcSeedB := 0x36E#10, crcPoly := 0x225#10 } } ∧
  State.reset.cfg.wellFormed = true ∧ Geometry.sz.wellFormed = true

/-- R22, R39: no operation changes an instance parameter, and no step does. -/
def Obligations.ParametersNeverChange : Prop :=
  (∀ (i : Instr) (s t : State), exec i s = .next t → t.cfg = s.cfg) ∧
  (∀ s t : State, step s = .next t → t.cfg = s.cfg)

/-! ## Encoding -/

/-- R42 and R48, words written out from their tables: a symbol, each of the eight dispatch words, some stage words, a
table word. -/
def Obligations.WordsOfTheTablesDecode : Prop :=
  decode (.sym 0b10#2) = .ok (.sym ⟨true, false⟩) ∧
  decodeDispatch 0b000#3 = .scan false ∧ decodeDispatch 0b001#3 = .scan true ∧
  decodeDispatch 0b010#3 = .acq false ∧ decodeDispatch 0b011#3 = .acq true ∧
  decodeDispatch 0b100#3 = .shift false false ∧ decodeDispatch 0b101#3 = .shift false true ∧
  decodeDispatch 0b110#3 = .shift true false ∧ decodeDispatch 0b111#3 = .shift true true ∧
  decode (.stage 1 0b11#2) = .ok .word ∧ decode (.stage 12 0b11#2) = .ok .accept ∧
  decode (.stage 12 0b10#2) = .ok .reject ∧ decode (.stage 2 0b01#2) = .error .noStageRuns ∧
  decodeTableWord 8 0b110 = some (.shift true false)

/-- Decode and encode agree for every operation that has a code; DECODE alone has none (R48, R85). -/
def Obligations.DecodeEncodeAgree : Prop :=
  ∀ i : Instr, i.wellFormed = true →
    (∀ c, encode i = some c → decode c = .ok i) ∧ (encode i = none ↔ i = .decode)

/-! ## The machine -/

/-- R49, R99: every operation and every step answers a next state, in every state. -/
def Obligations.NothingAbortsOrStalls : Prop :=
  (∀ (i : Instr) (s : State), ∃ t, exec i s = .next t) ∧ (∀ s : State, ∃ t, step s = .next t)

/-- R23, R59, U14: while nothing is presented, a step changes nothing. -/
def Obligations.PauseChangesNothing : Prop :=
  ∀ s : State, s.inbox = [] → step s = .next s

/-- R48: a step takes the next request from the port, runs the operation that the mode and the request select, and
forgets the values of the step, which R19 says are gone. That requests stand in `inbox` is log entry 1; that the
forgotten values read as zeros (`Transients.idle`) is the model's choice, log entry 3. -/
def Obligations.StepRunsSelectedOperation : Prop :=
  ∀ (s t : State) (r : Request) (rest : List Request), s.inbox = r :: rest →
    exec (decodeRequest s.block.mode r) { s with inbox := rest } = .next t →
    step s = .next { t with wires := Transients.idle }

/-- R86, R48: the step that the dispatch word selects from the table is the `Step` of R86's pseudocode. Both end with
the idle values of log entry 3. -/
def Obligations.DispatchedStepIsSymbolStep : Prop :=
  ∀ (s : State) (sy : Symbol) (rest : List Request), s.inbox = .symbol sy :: rest →
    step s = exec (.sym sy) { s with inbox := rest }

/-! ## BitframeSync -/

/-- R54: SCAN changes nothing. -/
def Obligations.ScanChangesNothing : Prop :=
  ∀ (pol : Bit) (s : State), exec (.scan pol) s = .next s

/-- R55, both values of `SYNC_SYMBOL_IS_DATA` (D1). -/
def Obligations.AcqEntersTracking : Prop :=
  ∀ (pol : Bit) (s : State),
    (s.cfg.syncSymbolIsData = true →
      exec (.acq pol) s =
        .next { s with block := { s.block with mode := .tracking, buf := [!pol], cnt := 1 } }) ∧
    (s.cfg.syncSymbolIsData = false →
      exec (.acq pol) s =
        .next { s with block := { s.block with mode := .tracking, buf := [], cnt := 0 } })

/-- R56: SHIFT appends the logical bit behind the others and, at 76, runs WORD in the same step; `sync` plays no
part. -/
def Obligations.ShiftAppendsLogicalBit : Prop :=
  ∀ (sync pol : Bit) (s : State), s.block.cnt = s.block.buf.length →
    let t : State := { s with block := { s.block with buf := s.block.buf ++ [!pol], cnt := s.block.cnt + 1 } }
    (s.block.cnt ≤ 74 → exec (.shift sync pol) s = .next t) ∧
    (s.block.cnt = 75 → exec (.shift sync pol) s = exec .word t ∧ ∃ u, exec .word t = .next u)

/-- R57: WORD takes the 76 bits, clears the buffer, returns to UNSYNCED and decodes, in one step. -/
def Obligations.WordTakesBufferAndDecodes : Prop :=
  ∀ s : State, s.block.cnt = 76 → s.block.buf.length = 76 →
    ∃ t : State, exec .word s = .next t ∧
      exec .decode { s with
        block := { s.block with mode := .unsynced, buf := [], cnt := 0 }
        wires := { s.wires with word := wordOfBits s.block.buf } } = .next t ∧
      t.block.mode = .unsynced ∧ t.block.buf = [] ∧ t.block.cnt = 0 ∧
      t.wires.word = wordOfBits s.block.buf ∧
      t.cfg = s.cfg ∧ t.inbox = s.inbox ∧ t.replies = s.replies

/-- R58's transition table, for both values of `SYNC_SYMBOL_IS_DATA`; the rest of the state is named too. That the
values of a finished step read as zeros (`Transients.idle`) is the model's choice, log entry 3. -/
def Obligations.TransitionTable : Prop :=
  ∀ (sy : Symbol) (s : State), s.Inv →
    ∃ t : State, exec (.sym sy) s = .next t ∧
      (s.block.mode = .unsynced → sy.sync = false → t = s) ∧
      (s.block.mode = .unsynced → sy.sync = true →
        t = { s with block := { s.block with
                mode := .tracking
                buf := if s.cfg.syncSymbolIsData then [!sy.pol] else []
                cnt := if s.cfg.syncSymbolIsData then 1 else 0 } }) ∧
      (s.block.mode = .tracking → s.block.cnt ≤ 74 →
        t = { s with block := { s.block with buf := s.block.buf ++ [!sy.pol], cnt := s.block.cnt + 1 } }) ∧
      (s.block.mode = .tracking → s.block.cnt = 75 →
        t.block.mode = .unsynced ∧ t.block.buf = [] ∧ t.block.cnt = 0 ∧ t.wires = Transients.idle ∧
        t.cfg = s.cfg ∧ t.inbox = s.inbox ∧ t.replies = s.replies)

/-- R56, R57, R85, R86: the symbol that completes a word. That the values of the finished step read as zeros
(`Transients.idle`) is the model's choice, log entry 3. -/
def Obligations.CompletingSymbolDecodesWord : Prop :=
  ∀ (sy : Symbol) (s : State), s.block.mode = .tracking → s.block.cnt = 75 → s.block.buf.length = 75 →
    s.CanCount →
    let d := decode76 s.cfg (wordOfBits (s.block.buf ++ [!sy.pol]))
    exec (.sym sy) s =
      .next { s with
        block := s.block.afterWord d.crcOk
        outbox := s.outbox ++ [s.block.wordEvent d]
        wires := Transients.idle }

/-- R49 (a) and (b): `pol` of a scanned symbol, `sync` of a shifted one, and `pol` of an acquired one when the flagged
symbol is not data, have no effect. -/
def Obligations.IgnoredInputsHaveNoEffect : Prop :=
  (∀ (s : State) (p q : Bit), s.block.mode = .unsynced →
    exec (.sym ⟨false, p⟩) s = exec (.sym ⟨false, q⟩) s) ∧
  (∀ (s : State) (f g p : Bit), s.block.mode = .tracking →
    exec (.sym ⟨f, p⟩) s = exec (.sym ⟨g, p⟩) s) ∧
  (∀ (s : State) (p q : Bit), s.block.mode = .unsynced → s.cfg.syncSymbolIsData = false →
    exec (.sym ⟨true, p⟩) s = exec (.sym ⟨true, q⟩) s)

/-! ## Deinterleaver -/

/-- R61, and the other map of D3. -/
def Obligations.DeintReordersLanes : Prop :=
  ∀ s : State, ∃ seq : Bits 76,
    exec .deint s = .next { s with wires := { s.wires with seq := seq } } ∧
    (s.cfg.deintMap = .lane4 → ∀ k m, k < 4 → m < 19 →
      bitAt seq (19 * k + m) = bitAt s.wires.word (4 * m + k)) ∧
    (s.cfg.deintMap = .block19 → ∀ k m, k < 4 → m < 19 →
      bitAt seq (4 * m + k) = bitAt s.wires.word (19 * k + m))

/-- R63, and the other map of D3: INTLV returns its word and changes nothing else (the reply port is log entry 16). -/
def Obligations.IntlvReturnsInterleavedWord : Prop :=
  ∀ (seq : Bits 76) (s : State), ∃ w : Bits 76,
    exec (.intlv seq) s = .next { s with replies := s.replies ++ [.controlWord w] } ∧
    (s.cfg.deintMap = .lane4 → ∀ k m, k < 4 → m < 19 → bitAt w (4 * m + k) = bitAt seq (19 * k + m)) ∧
    (s.cfg.deintMap = .block19 → ∀ k m, k < 4 → m < 19 → bitAt w (19 * k + m) = bitAt seq (4 * m + k))

/-- R64, for both maps. -/
def Obligations.InterleaveRoundTrip : Prop :=
  ∀ (map : DeintMap) (x : Bits 76),
    deinterleave map (interleave map x) = x ∧ interleave map (deinterleave map x) = x

/-! ## Parity corrector -/

/-- R66. -/
def Obligations.SplitSeparatesPairs : Prop :=
  ∀ s : State, ∃ d p : Bits 38,
    exec .split s = .next { s with wires := { s.wires with d := d, p := p } } ∧
    ∀ i, i < 38 → bitAt d i = bitAt s.wires.seq (2 * i) ∧ bitAt p i = bitAt s.wires.seq (2 * i + 1)

/-- R67, with `PARITY_INIT` in the place of the missing predecessor (D5). -/
def Obligations.SyndFormsSyndrome : Prop :=
  ∀ s : State, ∃ syn : Bits 38,
    exec .synd s = .next { s with wires := { s.wires with syn := syn } } ∧
    bitAt syn 0 = (bitAt s.wires.d 0 ^^ s.cfg.parityInit ^^ bitAt s.wires.p 0) ∧
    ∀ i, 1 ≤ i → i ≤ 37 →
      bitAt syn i = (bitAt s.wires.d i ^^ bitAt s.wires.d (i - 1) ^^ bitAt s.wires.p i)

/-- R68, for `PARITY_MODE = two_pass`. -/
def Obligations.PcorrFlipsInTwoPasses : Prop :=
  ∀ s : State, s.cfg.parityMode = .twoPass → ∃ c : Bits 38,
    exec .pcorr s = .next { s with wires := { s.wires with c := c } } ∧
    (∀ i, i ≤ 36 →
      bitAt c i = (bitAt s.wires.d i ^^ (bitAt s.wires.syn i && bitAt s.wires.syn (i + 1)))) ∧
    bitAt c 37 = bitAt s.wires.d 37

/-- D4's alternative: `f i` says whether the test at index `i` succeeds, the syndrome bit there having been cleared by a
success at `i - 1`. That the cleared bits stay in the wire is log entry 17. -/
def Obligations.PcorrRecomputesSequentially : Prop :=
  ∀ s : State, s.cfg.parityMode = .sequentialRecompute → ∃ (c syn : Bits 38) (f : Nat → Bool),
    exec .pcorr s = .next { s with wires := { s.wires with c := c, syn := syn } } ∧
    f 0 = (bitAt s.wires.syn 0 && bitAt s.wires.syn 1) ∧
    (∀ i, i < 36 → f (i + 1) = ((bitAt s.wires.syn (i + 1) && !f i) && bitAt s.wires.syn (i + 2))) ∧
    (∀ i, i ≤ 36 → bitAt c i = (bitAt s.wires.d i ^^ f i)) ∧
    bitAt c 37 = bitAt s.wires.d 37 ∧
    bitAt syn 0 = bitAt s.wires.syn 0 ∧
    ∀ i, i ≤ 36 → bitAt syn (i + 1) = (bitAt s.wires.syn (i + 1) && !f i)

/-- R68 (b): the two modes agree on every syndrome with no run longer than 2. -/
def Obligations.ParityModesAgreeOnShortRuns : Prop :=
  ∀ d syn : Bits 38,
    (∀ i, i < 36 → (bitAt syn i && bitAt syn (i + 1) && bitAt syn (i + 2)) = false) →
    correct .twoPass d syn = correct .sequentialRecompute d syn

/-- R71. -/
def Obligations.PencAddsParity : Prop :=
  ∀ (c : Bits 38) (s : State), ∃ seq : Bits 76,
    exec (.penc c) s = .next { s with replies := s.replies ++ [.sequential seq] } ∧
    bitAt seq 0 = bitAt c 0 ∧ bitAt seq 1 = (bitAt c 0 ^^ s.cfg.parityInit) ∧
    ∀ i, 1 ≤ i → i ≤ 37 →
      bitAt seq (2 * i) = bitAt c i ∧ bitAt seq (2 * i + 1) = (bitAt c i ^^ bitAt c (i - 1))

/-- R72: an encoded word has no syndrome and comes back unchanged; on a received word the syndrome and the flips are
those of the error pattern alone. -/
def Obligations.CorrectorLaws : Prop :=
  ∀ (cfg : Config) (c : Bits 38),
    let d0 := dataBits (addParity cfg c)
    let p0 := parityBits (addParity cfg c)
    d0 = c ∧ syndrome cfg d0 p0 = 0#38 ∧ correct cfg.parityMode d0 (syndrome cfg d0 p0) = c ∧
    ∀ ed ep : Bits 38,
      let e := syndrome { cfg with parityInit := false } ed ep
      syndrome cfg (d0 ^^^ ed) (p0 ^^^ ep) = e ∧
      correct cfg.parityMode (d0 ^^^ ed) e = c ^^^ correct cfg.parityMode ed e

/-- R69 (a), (b), (c): an isolated channel error, every other one being at least three pairs away, under either
`PARITY_MODE` (D4). `e` is the syndrome of the pattern, by R72 that of the received word. Around the error, from
`e[i-1]` to `e[i+2]`, exactly the bits R69 names are set; of the data bits within two pairs of it none is left wrong,
but for `d[37]` itself. -/
def Obligations.IsolatedErrorsAreHarmless : Prop :=
  ∀ (mode : ParityMode) (ed ep : Bits 38) (i : Nat), i ≤ 37 →
    (∀ j, j ≤ 37 → j ≠ i → i < j + 3 → j < i + 3 → bitAt ed j = false ∧ bitAt ep j = false) →
    let e := syndrome Config.default ed ep
    let left := correct mode ed e
    (bitAt ed i = true → bitAt ep i = false → i ≤ 36 →
      (∀ j, j ≤ 37 → i ≤ j + 1 → j ≤ i + 2 → bitAt e j = decide (j = i ∨ j = i + 1)) ∧
      (∀ j, j ≤ 37 → i ≤ j + 2 → j ≤ i + 2 → bitAt left j = false)) ∧
    (bitAt ed i = true → bitAt ep i = false → i = 37 →
      (∀ j, 36 ≤ j → j ≤ 37 → bitAt e j = decide (j = 37)) ∧
      (∀ j, 35 ≤ j → j ≤ 37 → bitAt left j = decide (j = 37))) ∧
    (bitAt ed i = false → bitAt ep i = true →
      (∀ j, j ≤ 37 → i ≤ j + 1 → j ≤ i + 2 → bitAt e j = decide (j = i)) ∧
      (∀ j, j ≤ 37 → i ≤ j + 2 → j ≤ i + 2 → bitAt left j = false))

/-- R70's table, row by row, for every index at which both errors of the row exist: the syndrome bits set, the data bits
flipped, the wrong bits left. An index above 37 drops out of its column, and no flip is possible at 37: the fifth row at
its last index and the seventh at its last are given apart, `d[37]` staying wrong there. -/
def Obligations.InteractingErrorsTable : Prop :=
  ∀ i, i ≤ 37 →
    let row := fun (d p set flipped wrong : List Nat) =>
      let e := syndrome Config.default (errorsAt 38 d) (errorsAt 38 p)
      let left := correct .twoPass (errorsAt 38 d) e
      e = errorsAt 38 set ∧ left = errorsAt 38 d ^^^ errorsAt 38 flipped ∧ left = errorsAt 38 wrong
    (i ≤ 36 → row [] [i, i + 1] [i, i + 1] [i] [i]) ∧
    row [i] [i] [i + 1] [] [i] ∧
    (i ≤ 36 → row [i] [i + 1] [i] [] [i]) ∧
    (i ≤ 35 → row [i] [i + 2] [i, i + 1, i + 2] [i, i + 1] [i + 1]) ∧
    (1 ≤ i → i ≤ 36 → row [i] [i - 1] [i - 1, i, i + 1] [i - 1, i] [i - 1]) ∧
    (i = 37 → row [37] [36] [36, 37] [36] [36, 37]) ∧
    (i ≤ 36 → row [i, i + 1] [] [i, i + 2] [] [i, i + 1]) ∧
    (i ≤ 34 → row [i, i + 2] [] [i, i + 1, i + 2, i + 3] [i, i + 1, i + 2] [i + 1]) ∧
    (i = 35 → row [35, 37] [] [35, 36, 37] [35, 36] [36, 37])

/-! ## Fields -/

/-- R73, R47: XTR.ID, in either bit order (D6). -/
def Obligations.XtrIdReadsIdentifier : Prop :=
  ∀ s : State, ∃ v : BitVec 16,
    exec .xtrId s = .next { s with wires := { s.wires with id := v } } ∧
    (s.cfg.lit = Literals.sz → s.cfg.lit.idXor = 0x33C7#16) ∧
    ∀ t, t < 16 →
      (s.cfg.fieldMsbFirst = true →
        v.getLsbD (15 - t) = (bitAt s.wires.c t ^^ s.cfg.lit.idXor.getLsbD (15 - t))) ∧
      (s.cfg.fieldMsbFirst = false →
        v.getLsbD t = (bitAt s.wires.c t ^^ s.cfg.lit.idXor.getLsbD t))

/-- R74: XTR.G. -/
def Obligations.XtrGReadsGroupFlag : Prop :=
  ∀ s : State,
    exec .xtrG s =
      .next { s with wires := { s.wires with g := (bitAt s.wires.c 16 ^^ s.cfg.lit.gXor) } } ∧
    (s.cfg.lit = Literals.sz →
      exec .xtrG s = .next { s with wires := { s.wires with g := !bitAt s.wires.c 16 } })

/-- R75, R47: XTR.CMD, in either bit order (D6). -/
def Obligations.XtrCmdReadsOpcode : Prop :=
  ∀ s : State, ∃ v : BitVec 10,
    exec .xtrCmd s = .next { s with wires := { s.wires with cmd := v } } ∧
    (s.cfg.lit = Literals.sz → s.cfg.lit.cmdXor = 0x32A#10) ∧
    ∀ t, t < 10 →
      (s.cfg.fieldMsbFirst = true →
        v.getLsbD (9 - t) = (bitAt s.wires.c (17 + t) ^^ s.cfg.lit.cmdXor.getLsbD (9 - t))) ∧
      (s.cfg.fieldMsbFirst = false →
        v.getLsbD t = (bitAt s.wires.c (17 + t) ^^ s.cfg.lit.cmdXor.getLsbD t))

/-- R76, R47: XTR.CRC, in either bit order (D6), under any `CRC_FIELD_XOR` (D7); at the default every bit is
inverted. -/
def Obligations.XtrCrcReadsChecksum : Prop :=
  ∀ s : State, ∃ v : BitVec 10,
    exec .xtrCrc s = .next { s with wires := { s.wires with crc := v } } ∧
    (∀ t, t < 10 →
      (s.cfg.fieldMsbFirst = true →
        v.getLsbD (9 - t) = (bitAt s.wires.c (27 + t) ^^ s.cfg.crcFieldXor.getLsbD (9 - t))) ∧
      (s.cfg.fieldMsbFirst = false →
        v.getLsbD t = (bitAt s.wires.c (27 + t) ^^ s.cfg.crcFieldXor.getLsbD t))) ∧
    (s.cfg.fieldMsbFirst = true → s.cfg.crcFieldXor = 0x3FF#10 →
      ∀ t, t < 10 → v.getLsbD (9 - t) = !bitAt s.wires.c (27 + t))

/-- R77: bit 37 of the data word is passed through by the corrector and reaches neither a field nor the verdict. -/
def Obligations.DataBit37ReachesNothing : Prop :=
  (∀ (cfg : Config) (c c' : Bits 38), (∀ i, i ≤ 36 → bitAt c i = bitAt c' i) →
    readDataWord cfg c = readDataWord cfg c') ∧
  (∀ (mode : ParityMode) (d syn : Bits 38), bitAt (correct mode d syn) 37 = bitAt d 37)

/-- R49 (d), R111 and U1 read without limit: the last parity bit (`W[75]`) never changes the verdict. So read they
contradict C1, R68 and vector T5m (log entry 19): with `s[36]` set, `s[37]` makes PCORR flip `d[36]`. Expected to FAIL. -/
def Obligations.LastParityBitNeverMatters : Prop :=
  ∀ w : Bits 76,
    (decode76 Config.default (w ^^^ errorsAt 76 [75])).crcOk = (decode76 Config.default w).crcOk

/-- What is true of pair 37 under R68: while `s[36]` is clear, the two channel bits of the last pair change neither the
fields nor the verdict (log entry 19). -/
def Obligations.LastPairHarmlessWithoutSyndrome36 : Prop :=
  ∀ (cfg : Config) (w w' : Bits 76), cfg.deintMap = .lane4 →
    (∀ j, j < 76 → j ≠ 71 → j ≠ 75 → bitAt w j = bitAt w' j) →
    bitAt (syndrome cfg (dataBits (deinterleave .lane4 w)) (parityBits (deinterleave .lane4 w))) 36 = false →
    decode76 cfg w = decode76 cfg w'

/-- R78: FPACK. -/
def Obligations.FpackBuildsDataWord : Prop :=
  ∀ (id : BitVec 16) (g : Bit) (cmd : BitVec 10) (u : Option Bit) (s : State), ∃ c : Bits 38,
    exec (.fpack id g cmd u) s = .next { s with replies := s.replies ++ [.dataWord c] } ∧
    fieldNum s.cfg (slice c 0 16) = id ^^^ s.cfg.lit.idXor ∧
    bitAt c 16 = (g ^^ s.cfg.lit.gXor) ∧
    fieldNum s.cfg (slice c 17 10) = cmd ^^^ s.cfg.lit.cmdXor ∧
    fieldNum s.cfg (slice c 27 10) = crcgen s.cfg (slice c 0 27) ^^^ s.cfg.crcFieldXor ∧
    bitAt c 37 = u.getD s.cfg.encU

/-! ## Checksum -/

/-- R79: CRCGEN by its two registers, iteration by iteration. -/
def Obligations.CrcgenRunsRegisters : Prop :=
  ∀ s : State, ∃ acc op : Nat → BitVec 10,
    exec .crcgen s = .next { s with wires := { s.wires with acc := acc 27, op := op 27, crcCalc := acc 27 } } ∧
    acc 0 = s.cfg.lit.crcSeedA ∧ op 0 = s.cfg.lit.crcSeedB ∧
    (s.cfg.lit = Literals.sz →
      acc 0 = 0x393#10 ∧ op 0 = 0x36E#10 ∧ s.cfg.lit.crcPoly = 0x225#10) ∧
    ∀ j, j ≤ 26 →
      op (j + 1) = (if (op j).getLsbD 0 then (op j >>> 1) ^^^ s.cfg.lit.crcPoly else op j >>> 1) ∧
      acc (j + 1) = (if bitAt s.wires.c j then acc j ^^^ op (j + 1) else acc j)

/-- R80: the table form, and that the checksum is affine. -/
def Obligations.ChecksumTableForm : Prop :=
  let table : List (BitVec 10) :=
    [0x1B7, 0x2FE, 0x17F, 0x29A, 0x14D, 0x283, 0x364, 0x1B2, 0x0D9, 0x249, 0x301, 0x3A5, 0x3F7, 0x3DE, 0x1EF,
     0x2D2, 0x169, 0x291, 0x36D, 0x393, 0x3EC, 0x1F6, 0x0FB, 0x258, 0x12C, 0x096, 0x04B]
  (∀ x : Bits 27, crcgen Config.default x =
    (List.range 27).foldl (fun v j => if bitAt x j then v ^^^ table.getD j 0#10 else v) 0x393#10) ∧
  table.Nodup ∧ 0#10 ∉ table ∧
  ∀ x y : Bits 27, crcgen Config.default (x ^^^ y) =
    crcgen Config.default x ^^^ crcgen Config.default y ^^^ 0x393#10

/-- R81: CRCCHK. -/
def Obligations.CrcchkComparesExactly : Prop :=
  ∀ s : State, exec .crcchk s =
    .next { s with wires := { s.wires with crcOk := decide (s.wires.crcCalc = s.wires.crc) } }

/-- R82: ACCEPT. -/
def Obligations.AcceptCountsAndEmits : Prop :=
  ∀ s : State, s.CanCount →
    exec .accept s = .next { s with
      block := { s.block with valid := s.block.valid + 1 }
      outbox := s.outbox ++ [.osw ⟨s.wires.id, s.wires.g, s.wires.cmd, s.wires.crc⟩] }

/-- R83: REJECT. -/
def Obligations.RejectCountsAndReports : Prop :=
  ∀ s : State, s.CanCount →
    exec .reject s = .next { s with
      block := { s.block with errors := s.block.errors + 1 }
      outbox := s.outbox ++ [.crcfail (s.block.errors + 1) s.block.valid] }

/-! ## The whole word -/

/-- The model's choice for U6 (log entries 9 and 10): where a finite realisation leaves the spec, ACCEPT and REJECT still
do everything else and the counter holds some value of its width, and RATIO still answers some value. -/
def Obligations.CountingBeyondWidthStillRuns : Prop :=
  ∀ (s : State) (w : Nat), s.cfg.cntW = some w →
    (¬ s.CanCount →
      (∃ v, v < 2 ^ w ∧ exec .accept s = .next { s with
        block := { s.block with valid := v }
        outbox := s.outbox ++ [.osw ⟨s.wires.id, s.wires.g, s.wires.cmd, s.wires.crc⟩]
        draws := s.draws + 1 }) ∧
      (∃ v, v < 2 ^ w ∧ exec .reject s = .next { s with
        block := { s.block with errors := v }
        outbox := s.outbox ++ [.crcfail v s.block.valid]
        draws := s.draws + 1 })) ∧
    (2 ^ w ≤ s.block.valid + s.block.errors → ∃ q, exec .ratio s = .next { s with
      replies := s.replies ++ [.ratio q]
      draws := s.draws + 1 })

/-- R84 (a): a data word that differs from an accepted one in one, two or three of its first 37 bits is rejected,
whatever `CRC_FIELD_XOR`; (b): some changes of four bits are not noticed. -/
def Obligations.ThreeChangesAreDetectedFourMayNot : Prop :=
  (∀ (cfg : Config) (c c' : Bits 38), cfg.lit = Literals.sz → (readDataWord cfg c).crcOk = true →
    1 ≤ differences c c' → differences c c' ≤ 3 → (readDataWord cfg c').crcOk = false) ∧
  (∀ c : Bits 38, (readDataWord Config.default c).crcOk = true →
    (readDataWord Config.default (c ^^^ errorsAt 38 [0, 2, 11, 18])).crcOk = true)

/-- R85: DECODE as a whole: the fields and the verdict of Decode76 of `W`, then ACCEPT or REJECT. -/
def Obligations.DecodeAcceptsOrRejects : Prop :=
  ∀ s : State, s.CanCount →
    let d := decode76 s.cfg s.wires.word
    ∃ x : Transients,
      exec .decode s = .next { s with
        wires := x
        block := { s.block with
          valid := if d.crcOk then s.block.valid + 1 else s.block.valid
          errors := if d.crcOk then s.block.errors else s.block.errors + 1 }
        outbox := s.outbox ++ [s.block.wordEvent d] } ∧
      x.word = s.wires.word ∧ (⟨x.id, x.g, x.cmd, x.crc⟩ : Osw) = d.osw ∧ x.crcOk = d.crcOk

/-- R48, R85: DECODE is the operations at places 2 to 12 of the stage sequence, each as the stage word selects it at
the moment it runs. -/
def Obligations.DecodeRunsStageSequence : Prop :=
  ∀ s : State, exec .decode s =
    runAll ((List.range' 2 11).map (fun place t =>
      match decodeStage place (stageWord true t.wires.crcOk) with
      | .ok i => exec i t
      | .error _ => .next t)) s

/-- R88: ENCODE returns `INTLV(PENC(FPACK(id, g, cmd, u)))` and changes nothing else (the reply port is log
entry 16). -/
def Obligations.EncodeReturnsControlWord : Prop :=
  ∀ (id : BitVec 16) (g : Bit) (cmd : BitVec 10) (u : Option Bit) (s : State),
    exec (.encode id g cmd u) s = .next { s with
      replies := s.replies ++
        [.controlWord (interleave s.cfg.deintMap (addParity s.cfg (pack s.cfg id g cmd u)))] }

/-- R89: decoding an encoded word gives the fields back for every configuration, encoding is injective, decoding is
not. -/
def Obligations.EncodeDecodeRoundTrip : Prop :=
  (∀ (cfg : Config) (id : BitVec 16) (g : Bit) (cmd : BitVec 10) (u : Bit),
    decode76 cfg (encodeWord cfg id g cmd (some u)) =
      { osw := ⟨id, g, cmd, crcgen cfg (coveredBits (pack cfg id g cmd (some u)))⟩, crcOk := true }) ∧
  (∀ (cfg : Config) (id id' : BitVec 16) (g g' : Bit) (cmd cmd' : BitVec 10) (u u' : Bit),
    encodeWord cfg id g cmd (some u) = encodeWord cfg id' g' cmd' (some u') →
      id = id' ∧ g = g' ∧ cmd = cmd' ∧ u = u') ∧
  (∃ w w' : Bits 76, w ≠ w' ∧ decode76 Config.default w = decode76 Config.default w')

/-- R69, last clause: any single channel error among the 76 bits of an encoded word leaves the decoded fields and the
acceptance as they were, under every configuration. -/
def Obligations.SingleChannelErrorIsRepaired : Prop :=
  ∀ (cfg : Config) (id : BitVec 16) (g : Bit) (cmd : BitVec 10) (u : Option Bit) (j : Nat), j < 76 →
    decode76 cfg (encodeWord cfg id g cmd u ^^^ errorsAt 76 [j]) = decode76 cfg (encodeWord cfg id g cmd u)

/-- R65: under `lane4`, any errors confined to four consecutive channel bits are repaired, under either `PARITY_MODE`
(D4: the errors are isolated, so no run of set syndrome bits is longer than 2). -/
def Obligations.BurstsOfFourAreRepaired : Prop :=
  ∀ (cfg : Config) (id : BitVec 16) (g : Bit) (cmd : BitVec 10) (u : Option Bit) (e : Bits 76) (j : Nat),
    cfg.deintMap = .lane4 →
    (∀ i, i < 76 → bitAt e i = true → j ≤ i ∧ i ≤ j + 3) →
    decode76 cfg (encodeWord cfg id g cmd u ^^^ e) = decode76 cfg (encodeWord cfg id g cmd u)

/-- R56, R57, R109: from TRACKING, the symbols that are still missing complete the word whatever their flags, and in
that many steps the block has decoded it and is waiting for the next flag. The port is log entry 1, the idle wires in
`State.Inv` log entry 3. -/
def Obligations.MissingSymbolsCompleteWord : Prop :=
  ∀ (s : State) (l : List Symbol) (rest : List Request),
    s.Inv → s.CanCount → s.block.mode = .tracking → s.block.cnt + l.length = 76 →
    s.inbox = l.map Request.symbol ++ rest →
    let d := decode76 s.cfg (wordOfBits (s.block.buf ++ l.map (fun sy => !sy.pol)))
    Host.Core.run Sys2Proof.core l.length s =
      .next { s with
        inbox := rest
        block := s.block.afterWord d.crcOk
        outbox := s.outbox ++ [s.block.wordEvent d] }

/-- R52, R86, R88, R89: the stimulus of an encoded word, `WORD` or (with `SYNC_SYMBOL_IS_DATA = false`) `WORDX`, given to
a block that waits, yields exactly the event with the fields that were encoded. The port is log entry 1, the idle wires
in `State.Inv` log entry 3. -/
def Obligations.EncodedWordIsDelivered : Prop :=
  ∀ (s : State) (id : BitVec 16) (g : Bit) (cmd : BitVec 10) (u : Option Bit) (l : List Symbol)
    (rest : List Request),
    s.Inv → s.CanCount → s.block.mode = .unsynced →
    l = (if s.cfg.syncSymbolIsData then (StimulusLine.word (encodeWord s.cfg id g cmd u)).expand
      else (StimulusLine.wordx (encodeWord s.cfg id g cmd u)).expand) →
    s.inbox = l.map Request.symbol ++ rest →
    Host.Core.run Sys2Proof.core l.length s =
      .next { s with
        inbox := rest
        block := { s.block with valid := s.block.valid + 1 }
        outbox := s.outbox ++
          [.osw ⟨id, g, cmd, crcgen s.cfg (coveredBits (pack s.cfg id g cmd u))⟩] }

/-- R60, R107: a block that waits ignores every symbol until one carries a flag. The port is log entry 1, the idle wires
in `State.Inv` log entry 3. -/
def Obligations.EveryWordNeedsItsFlag : Prop :=
  ∀ (s : State) (l : List Symbol) (rest : List Request), s.Inv → s.block.mode = .unsynced →
    (∀ sy, sy ∈ l → sy.sync = false) → s.inbox = l.map Request.symbol ++ rest →
    Host.Core.run Sys2Proof.core l.length s = .next { s with inbox := rest }

/-! ## Invariants and observations -/

/-- R16, R24: the invariants hold at reset; that the values of a step are zeros there is log entry 3. -/
def Obligations.ResetHasInvariant : Prop := State.reset.Inv ∧ State.reset.block.buf.wf

/-- R15, R16: every step keeps the invariants: `cnt` is the length of the buffer and at most 75, UNSYNCED has an
empty buffer, TRACKING has at least the flagged bit when it is data, and no value of a step survives it. R19 gives those
values none between steps: that they read as zeros (`Transients.idle` in `State.Inv`) is the model's choice, log entry
3. -/
def Obligations.StepKeepsInvariant : Prop :=
  ∀ s t : State, s.Inv → step s = .next t → t.Inv ∧ t.block.buf.wf

/-- R18: a symbol step raises `valid + errors` by one exactly when it completes a word, and touches one counter. -/
def Obligations.OneCountPerCompletedWord : Prop :=
  ∀ (sy : Symbol) (s t : State), s.cfg.cntW = none → exec (.sym sy) s = .next t →
    (s.block.mode = .tracking ∧ s.block.cnt = 75 →
      (t.block.valid = s.block.valid + 1 ∧ t.block.errors = s.block.errors) ∨
      (t.block.valid = s.block.valid ∧ t.block.errors = s.block.errors + 1)) ∧
    (¬ (s.block.mode = .tracking ∧ s.block.cnt = 75) →
      t.block.valid = s.block.valid ∧ t.block.errors = s.block.errors)

/-- R87: a symbol step emits one event when it completes a word and none otherwise; what was emitted stays. -/
def Obligations.AtMostOneEventPerStep : Prop :=
  ∀ (sy : Symbol) (s t : State), exec (.sym sy) s = .next t →
    (s.block.mode = .tracking ∧ s.block.cnt = 75 → ∃ e, t.outbox = s.outbox ++ [e]) ∧
    (¬ (s.block.mode = .tracking ∧ s.block.cnt = 75) → t.outbox = s.outbox)

/-- R18: the counters never decide what the block does next. -/
def Obligations.CountersNeverDecide : Prop :=
  ∀ (sy : Symbol) (s t t' : State) (v e : Nat), exec (.sym sy) s = .next t →
    exec (.sym sy) { s with block := { s.block with valid := v, errors := e } } = .next t' →
    t'.block.mode = t.block.mode ∧ t'.block.buf = t.block.buf ∧ t'.block.cnt = t.block.cnt

/-- R90: RATIO returns the exact ratio and changes nothing else. -/
def Obligations.RatioIsExact : Prop :=
  ∀ s : State, countsExactly s.cfg (s.block.valid + s.block.errors) = true → ∃ q : Rat,
    exec .ratio s = .next { s with replies := s.replies ++ [.ratio q] } ∧
    (s.block.valid + s.block.errors = 0 → q = 0) ∧
    (s.block.valid + s.block.errors ≠ 0 →
      q * ((s.block.valid : Rat) + (s.block.errors : Rat)) = (s.block.errors : Rat)) ∧
    0 ≤ q ∧ q ≤ 1

/-- R87, R90: the percentage a sink forms from a CRCFAIL event is 100 times the ratio read right after the step. -/
def Obligations.PercentageIsHundredTimesRatio : Prop :=
  ∀ s t u : State, s.cfg.cntW = none → exec .reject s = .next t → exec .ratio t = .next u →
    ∃ (e : Event) (q : Rat), t.outbox = s.outbox ++ [e] ∧ u.replies = t.replies ++ [.ratio q] ∧
      e.percentage = some (100 * q)
end

