-- ==== Sys2Proof/Laws/Bits.lean ====
section
/-! SUPPORT. Bit sequences by their elements: what `bitAt` reads from each way of building one. -/

namespace Sys2Proof.Machine

theorem bitAt_bitsOfFn {n i : Nat} (f : Nat → Bit) (h : i < n) : bitAt (bitsOfFn n f) i = f i := by
  induction n with
  | zero => omega
  | succ n ih =>
    simp only [bitAt, bitsOfFn, BitVec.getMsbD_concat] at *
    by_cases hi : i < n
    · simp [hi, ih hi]
    · have : i = n := by omega
      simp [this]

theorem bitAt_of_le {n i : Nat} (x : Bits n) (h : n ≤ i) : bitAt x i = false := by
  simp [bitAt, BitVec.getMsbD_of_ge x i h]

theorem bits_ext {n : Nat} {x y : Bits n} (h : ∀ i, i < n → bitAt x i = bitAt y i) : x = y :=
  BitVec.eq_of_getMsbD_eq h

theorem bitAt_bitsOfFn_ite {n : Nat} (f : Nat → Bit) (i : Nat) :
    bitAt (bitsOfFn n f) i = (decide (i < n) && f i) := by
  by_cases h : i < n
  · simp [bitAt_bitsOfFn f h, h]
  · simp [bitAt_of_le _ (Nat.le_of_not_lt h), h]

/-- A sequence is the one built from its own elements. -/
theorem bitsOfFn_bitAt {n : Nat} (x : Bits n) : bitsOfFn n (bitAt x) = x :=
  bits_ext fun _ h => bitAt_bitsOfFn _ h

theorem bitsOfFn_congr {n : Nat} {f g : Nat → Bit} (h : ∀ i, i < n → f i = g i) :
    bitsOfFn n f = bitsOfFn n g :=
  bits_ext fun i hi => by rw [bitAt_bitsOfFn _ hi, bitAt_bitsOfFn _ hi, h i hi]

@[simp] theorem bitAt_xor {n : Nat} (x y : Bits n) (i : Nat) :
    bitAt (x ^^^ y) i = (bitAt x i).xor (bitAt y i) := by
  simp [bitAt]

@[simp] theorem bitAt_zero (n i : Nat) : bitAt (0#n) i = false := by
  simp [bitAt]

/-- Element `t` in order of time is bit `n - 1 - t` of the number (R8). -/
theorem getLsbD_eq_bitAt {n t : Nat} (x : Bits n) (h : t < n) : x.getLsbD (n - 1 - t) = bitAt x t := by
  simp [bitAt, BitVec.getMsbD, h]

theorem bitAt_slice {m a n i : Nat} (x : Bits m) (h : i < n) : bitAt (slice x a n) i = bitAt x (a + i) :=
  bitAt_bitsOfFn _ h

theorem bitAt_reverseBits {n i : Nat} (x : Bits n) (h : i < n) :
    bitAt (reverseBits x) i = bitAt x (n - 1 - i) :=
  bitAt_bitsOfFn _ h

theorem reverseBits_reverseBits {n : Nat} (x : Bits n) : reverseBits (reverseBits x) = x :=
  bits_ext fun i h => by
    rw [bitAt_reverseBits _ h, bitAt_reverseBits _ (by omega)]
    congr 1
    omega

/-- Reading the bits of a number as a field gives the number back (R8, D6). -/
@[simp] theorem fieldNum_fieldBits (cfg : Config) {n : Nat} (v : BitVec n) :
    fieldNum cfg (fieldBits cfg v) = v := by
  unfold fieldNum fieldBits num numLsb
  split
  · rfl
  · exact reverseBits_reverseBits v

/-- Writing the number of a field gives its bits back (R8, D6). -/
@[simp] theorem fieldBits_fieldNum (cfg : Config) {n : Nat} (x : Bits n) :
    fieldBits cfg (fieldNum cfg x) = x := by
  unfold fieldNum fieldBits num numLsb
  split
  · rfl
  · exact reverseBits_reverseBits x

@[simp] theorem previousBit_zero (cfg : Config) {n : Nat} (x : Bits n) :
    previousBit cfg x 0 = cfg.parityInit := rfl

@[simp] theorem previousBit_succ (cfg : Config) {n : Nat} (x : Bits n) (i : Nat) :
    previousBit cfg x (i + 1) = bitAt x i := rfl

end Sys2Proof.Machine
end

