-- ==== Sys2Proof/Laws/State.lean ====
section
/-! SUPPORT. One lemma per field per write of the state, so that no proof unfolds a record update. -/

namespace Sys2Proof.Machine

@[simp] theorem State.setBlock_cfg (s : State) (b : Block) : (s.setBlock b).cfg = s.cfg := rfl
@[simp] theorem State.setBlock_block (s : State) (b : Block) : (s.setBlock b).block = b := rfl
@[simp] theorem State.setBlock_wires (s : State) (b : Block) : (s.setBlock b).wires = s.wires := rfl
@[simp] theorem State.setBlock_inbox (s : State) (b : Block) : (s.setBlock b).inbox = s.inbox := rfl
@[simp] theorem State.setBlock_outbox (s : State) (b : Block) : (s.setBlock b).outbox = s.outbox := rfl
@[simp] theorem State.setBlock_replies (s : State) (b : Block) : (s.setBlock b).replies = s.replies := rfl
@[simp] theorem State.setBlock_draws (s : State) (b : Block) : (s.setBlock b).draws = s.draws := rfl

@[simp] theorem State.setWires_cfg (s : State) (w : Transients) : (s.setWires w).cfg = s.cfg := rfl
@[simp] theorem State.setWires_block (s : State) (w : Transients) : (s.setWires w).block = s.block := rfl
@[simp] theorem State.setWires_wires (s : State) (w : Transients) : (s.setWires w).wires = w := rfl
@[simp] theorem State.setWires_inbox (s : State) (w : Transients) : (s.setWires w).inbox = s.inbox := rfl
@[simp] theorem State.setWires_outbox (s : State) (w : Transients) : (s.setWires w).outbox = s.outbox := rfl
@[simp] theorem State.setWires_replies (s : State) (w : Transients) : (s.setWires w).replies = s.replies := rfl
@[simp] theorem State.setWires_draws (s : State) (w : Transients) : (s.setWires w).draws = s.draws := rfl

@[simp] theorem State.setInbox_cfg (s : State) (q : List Request) : (s.setInbox q).cfg = s.cfg := rfl
@[simp] theorem State.setInbox_block (s : State) (q : List Request) : (s.setInbox q).block = s.block := rfl
@[simp] theorem State.setInbox_wires (s : State) (q : List Request) : (s.setInbox q).wires = s.wires := rfl
@[simp] theorem State.setInbox_inbox (s : State) (q : List Request) : (s.setInbox q).inbox = q := rfl
@[simp] theorem State.setInbox_outbox (s : State) (q : List Request) : (s.setInbox q).outbox = s.outbox := rfl
@[simp] theorem State.setInbox_replies (s : State) (q : List Request) : (s.setInbox q).replies = s.replies := rfl
@[simp] theorem State.setInbox_draws (s : State) (q : List Request) : (s.setInbox q).draws = s.draws := rfl

@[simp] theorem State.setOutbox_cfg (s : State) (q : List Event) : (s.setOutbox q).cfg = s.cfg := rfl
@[simp] theorem State.setOutbox_block (s : State) (q : List Event) : (s.setOutbox q).block = s.block := rfl
@[simp] theorem State.setOutbox_wires (s : State) (q : List Event) : (s.setOutbox q).wires = s.wires := rfl
@[simp] theorem State.setOutbox_inbox (s : State) (q : List Event) : (s.setOutbox q).inbox = s.inbox := rfl
@[simp] theorem State.setOutbox_outbox (s : State) (q : List Event) : (s.setOutbox q).outbox = q := rfl
@[simp] theorem State.setOutbox_replies (s : State) (q : List Event) : (s.setOutbox q).replies = s.replies := rfl
@[simp] theorem State.setOutbox_draws (s : State) (q : List Event) : (s.setOutbox q).draws = s.draws := rfl

@[simp] theorem State.setReplies_cfg (s : State) (q : List Reply) : (s.setReplies q).cfg = s.cfg := rfl
@[simp] theorem State.setReplies_block (s : State) (q : List Reply) : (s.setReplies q).block = s.block := rfl
@[simp] theorem State.setReplies_wires (s : State) (q : List Reply) : (s.setReplies q).wires = s.wires := rfl
@[simp] theorem State.setReplies_inbox (s : State) (q : List Reply) : (s.setReplies q).inbox = s.inbox := rfl
@[simp] theorem State.setReplies_outbox (s : State) (q : List Reply) : (s.setReplies q).outbox = s.outbox := rfl
@[simp] theorem State.setReplies_replies (s : State) (q : List Reply) : (s.setReplies q).replies = q := rfl
@[simp] theorem State.setReplies_draws (s : State) (q : List Reply) : (s.setReplies q).draws = s.draws := rfl

@[simp] theorem State.setDraws_cfg (s : State) (n : Nat) : (s.setDraws n).cfg = s.cfg := rfl
@[simp] theorem State.setDraws_block (s : State) (n : Nat) : (s.setDraws n).block = s.block := rfl
@[simp] theorem State.setDraws_wires (s : State) (n : Nat) : (s.setDraws n).wires = s.wires := rfl
@[simp] theorem State.setDraws_inbox (s : State) (n : Nat) : (s.setDraws n).inbox = s.inbox := rfl
@[simp] theorem State.setDraws_outbox (s : State) (n : Nat) : (s.setDraws n).outbox = s.outbox := rfl
@[simp] theorem State.setDraws_replies (s : State) (n : Nat) : (s.setDraws n).replies = s.replies := rfl
@[simp] theorem State.setDraws_draws (s : State) (n : Nat) : (s.setDraws n).draws = n := rfl

/-! The named write is the record update. -/

theorem State.setBlock_eq (s : State) (b : Block) : s.setBlock b = { s with block := b } := rfl
theorem State.setWires_eq (s : State) (w : Transients) : s.setWires w = { s with wires := w } := rfl
theorem State.setInbox_eq (s : State) (q : List Request) : s.setInbox q = { s with inbox := q } := rfl
theorem State.setOutbox_eq (s : State) (q : List Event) : s.setOutbox q = { s with outbox := q } := rfl
theorem State.setReplies_eq (s : State) (q : List Reply) : s.setReplies q = { s with replies := q } := rfl
theorem State.setDraws_eq (s : State) (n : Nat) : s.setDraws n = { s with draws := n } := rfl

/-! The later of two writes of one field stands. -/

@[simp] theorem State.setBlock_setBlock (s : State) (a b : Block) : (s.setBlock a).setBlock b = s.setBlock b := rfl
@[simp] theorem State.setWires_setWires (s : State) (a b : Transients) : (s.setWires a).setWires b = s.setWires b := rfl
@[simp] theorem State.setInbox_setInbox (s : State) (a b : List Request) : (s.setInbox a).setInbox b = s.setInbox b := rfl
@[simp] theorem State.setOutbox_setOutbox (s : State) (a b : List Event) : (s.setOutbox a).setOutbox b = s.setOutbox b := rfl
@[simp] theorem State.setReplies_setReplies (s : State) (a b : List Reply) : (s.setReplies a).setReplies b = s.setReplies b := rfl
@[simp] theorem State.setDraws_setDraws (s : State) (a b : Nat) : (s.setDraws a).setDraws b = s.setDraws b := rfl

@[simp] theorem State.setDraws_self (s : State) : s.setDraws s.draws = s := rfl

end Sys2Proof.Machine
end

