-- ==== Sys2Proof/Laws/Ops.lean ====
section
/-! SUPPORT. For each shared operation, once, everything it can do. -/

namespace Sys2Proof.Machine

/-! ## Sequencing -/

@[simp] theorem andThen_next (s : State) (f : State → Outcome) : andThen (.next s) f = f s := rfl

/-- A sequence that answers a next state went through one. -/
theorem andThen_eq_next {o : Outcome} {f : State → Outcome} {t : State} (h : andThen o f = .next t) :
    ∃ s, o = .next s ∧ f s = .next t := by
  cases o with
  | next s => exact ⟨s, rfl, h⟩
  | fault r => cases h
  | refused r => cases h

/-- Ending a sequence changes nothing. -/
@[simp] theorem andThen_stop (o : Outcome) : andThen o .next = o := by
  cases o <;> rfl

@[simp] theorem runAll_nil (s : State) : runAll [] s = .next s := rfl

@[simp] theorem runAll_cons (f : State → Outcome) (fs : List (State → Outcome)) (s : State) :
    runAll (f :: fs) s = andThen (f s) (runAll fs) := rfl

/-! ## Free values -/

@[simp] theorem drawIf_false (s : State) : drawIf false s = s := rfl

@[simp] theorem drawIf_true (s : State) : drawIf true s = s.setDraws (s.draws + 1) := rfl

@[simp] theorem drawIf_cfg (u : Bool) (s : State) : (drawIf u s).cfg = s.cfg := rfl
@[simp] theorem drawIf_block (u : Bool) (s : State) : (drawIf u s).block = s.block := rfl
@[simp] theorem drawIf_wires (u : Bool) (s : State) : (drawIf u s).wires = s.wires := rfl
@[simp] theorem drawIf_inbox (u : Bool) (s : State) : (drawIf u s).inbox = s.inbox := rfl
@[simp] theorem drawIf_outbox (u : Bool) (s : State) : (drawIf u s).outbox = s.outbox := rfl
@[simp] theorem drawIf_replies (u : Bool) (s : State) : (drawIf u s).replies = s.replies := rfl

/-! ## The word buffer -/

/-- A cell below the length reads as the bit stored there. -/
theorem memCell_of_lt {k : Nat} {m : Memory} {a : Nat} (h : a < m.length) : memCell k m a = m[a] := by
  simp [memCell, h]

theorem bitAt_memRead {k : Nat} {m : Memory} {a n i : Nat} (h : i < n) :
    bitAt (memRead k m a n) i = memCell k m (a + i) :=
  bitAt_bitsOfFn _ h

theorem map_memCell_range {k : Nat} {m : Memory} {a : Nat} (h : a ≤ m.length) :
    (List.range a).map (memCell k m) = m.take a := by
  apply List.ext_getElem
  · simp [h]
  · intro i h1 h2
    have : i < m.length := by
      simp at h1
      omega
    simp [memCell_of_lt this]

/-- A write at the length of the buffer is an append (R15, R29). -/
theorem memWrite_length {k : Nat} {m : Memory} {b : Bit} (h : m.length < 76) :
    memWrite k m m.length b = m ++ [b] := by
  simp [memWrite, h, map_memCell_range (Nat.le_refl _)]

/-- A written cell reads as what was written. -/
theorem memCell_memWrite_same {k j : Nat} {m : Memory} {a : Nat} {b : Bit} (h : a < 76) :
    memCell j (memWrite k m a b) a = b := by
  simp [memCell, memWrite, h]

/-- Every cell but the written one reads as before. -/
theorem memCell_memWrite_other {k : Nat} {m : Memory} {a i : Nat} {b : Bit} (h : i ≠ a) :
    memCell k (memWrite k m a b) i = memCell k m i := by
  unfold memWrite
  split
  · rcases Nat.lt_or_gt_of_ne h with hlt | hgt
    · simp [memCell, List.getElem?_append, hlt]
    · have h1 : ¬ i < a := by omega
      have h2 : i - a = (i - a - 1) + 1 := by omega
      simp only [memCell, List.getD_eq_getElem?_getD, List.getElem?_append, List.length_map,
        List.length_range, h1, if_false]
      rw [h2, List.getElem?_cons_succ, List.getElem?_drop]
      congr 2
      omega
  · rfl

/-- Every write keeps the form of the buffer. -/
theorem memWrite_wf {k : Nat} {m : Memory} {a : Nat} {b : Bit} (h : m.wf) : (memWrite k m a b).wf := by
  unfold Memory.wf at *
  unfold memWrite
  split
  · next ha =>
    simp at *
    omega
  · exact h

/-- The empty buffer, which a clear and a reset leave, has the form. -/
theorem nil_wf : Memory.wf [] := by decide

theorem reset_buf_wf : State.reset.block.buf.wf := by decide

/-- What an append does while `cnt` is the length of the buffer (R15, R29): the bit goes behind the others, `cnt` goes
up by one, nothing else changes. -/
theorem append_eq {b : Bit} {s : State} (hc : s.block.cnt = s.block.buf.length) (hl : s.block.buf.length < 76) :
    append b s = s.setBlock { s.block with buf := s.block.buf ++ [b], cnt := s.block.cnt + 1 } := by
  have h : ¬ s.block.buf.length < s.block.cnt := by omega
  simp [append, hc, memWrite_length hl]

/-- What an append leaves alone in every state. -/
theorem append_frame (b : Bit) (s : State) :
    (append b s).block.mode = s.block.mode ∧ (append b s).block.valid = s.block.valid ∧
      (append b s).block.errors = s.block.errors ∧ (append b s).block.cnt = s.block.cnt + 1 ∧
      (append b s).cfg = s.cfg ∧ (append b s).wires = s.wires ∧ (append b s).inbox = s.inbox ∧
      (append b s).outbox = s.outbox ∧ (append b s).replies = s.replies := by
  simp [append]

theorem append_wf {b : Bit} {s : State} (h : s.block.buf.wf) : (append b s).block.buf.wf := by
  simpa [append] using memWrite_wf h

theorem clearBuffer_eq (s : State) : clearBuffer s = s.setBlock { s.block with buf := [], cnt := 0 } := rfl

theorem setMode_eq (m : Mode) (s : State) : setMode m s = s.setBlock { s.block with mode := m } := rfl

/-- What reading the whole buffer does when it is whole (R30): `W` holds it, nothing else changes. -/
theorem readWord_eq {s : State} (h : s.block.buf.length = 76) :
    readWord s = s.setWires { s.wires with word := memRead s.draws s.block.buf 0 76 } := by
  simp [readWord, h]

/-- What reading the buffer leaves alone in every state. -/
theorem readWord_frame (s : State) :
    (readWord s).block = s.block ∧ (readWord s).cfg = s.cfg ∧ (readWord s).inbox = s.inbox ∧
      (readWord s).outbox = s.outbox ∧ (readWord s).replies = s.replies := by
  simp [readWord]

/-! ## Counters -/

theorem countsExactly_unbounded {cfg : Config} (h : cfg.cntW = none) (n : Nat) : countsExactly cfg n = true := by
  simp [countsExactly, h]

theorem counterAfter_eq {cfg : Config} {k n total : Nat} (h : countsExactly cfg total = true) :
    counterAfter cfg k n total = n + 1 := by
  simp [counterAfter, h]

/-- A counter of `w` bits never holds more than `w` bits. -/
theorem counterAfter_beyond {cfg : Config} {k n total w : Nat} (hw : cfg.cntW = some w)
    (h : countsExactly cfg total = false) : counterAfter cfg k n total < 2 ^ w := by
  simp only [counterAfter, h, hw]
  exact Nat.mod_lt _ (Nat.two_pow_pos w)

theorem countValid_eq {s : State} (h : countsExactly s.cfg (s.block.valid + s.block.errors + 1) = true) :
    countValid s = s.setBlock { s.block with valid := s.block.valid + 1 } := by
  simp [countValid, h, counterAfter_eq h]

theorem countError_eq {s : State} (h : countsExactly s.cfg (s.block.valid + s.block.errors + 1) = true) :
    countError s = s.setBlock { s.block with errors := s.block.errors + 1 } := by
  simp [countError, h, counterAfter_eq h]

/-- What counting an accepted word leaves alone in every state. -/
theorem countValid_frame (s : State) :
    (countValid s).block.mode = s.block.mode ∧ (countValid s).block.buf = s.block.buf ∧
      (countValid s).block.cnt = s.block.cnt ∧ (countValid s).block.errors = s.block.errors ∧
      (countValid s).cfg = s.cfg ∧ (countValid s).wires = s.wires ∧ (countValid s).inbox = s.inbox ∧
      (countValid s).outbox = s.outbox ∧ (countValid s).replies = s.replies := by
  simp [countValid]

/-- What counting a rejected word leaves alone in every state. -/
theorem countError_frame (s : State) :
    (countError s).block.mode = s.block.mode ∧ (countError s).block.buf = s.block.buf ∧
      (countError s).block.cnt = s.block.cnt ∧ (countError s).block.valid = s.block.valid ∧
      (countError s).cfg = s.cfg ∧ (countError s).wires = s.wires ∧ (countError s).inbox = s.inbox ∧
      (countError s).outbox = s.outbox ∧ (countError s).replies = s.replies := by
  simp [countError]

/-! ## Ports, conditions, the end of a step -/

theorem emit_eq (e : Event) (s : State) : emit e s = s.setOutbox (s.outbox ++ [e]) := rfl

theorem reply_eq (r : Reply) (s : State) : reply r s = s.setReplies (s.replies ++ [r]) := rfl

@[simp] theorem raise_framingError (s : State) : raise .framingError s = s := rfl

@[simp] theorem raise_integrityError (errors valid : Nat) (s : State) :
    raise (.integrityError errors valid) s = s.setOutbox (s.outbox ++ [.crcfail errors valid]) := rfl

theorem endStep_eq (s : State) : endStep s = s.setWires Transients.idle := rfl

@[simp] theorem endStep_endStep (s : State) : endStep (endStep s) = endStep s := rfl

theorem fetch_nil {s : State} (h : s.inbox = []) : fetch s = none := by
  simp [fetch, h]

theorem fetch_cons {s : State} {r : Request} {rest : List Request} (h : s.inbox = r :: rest) :
    fetch s = some (r, s.setInbox rest) := by
  simp [fetch, h]

/-! ## The parity corrector -/

theorem bitAt_syndrome {cfg : Config} {d p : Bits 38} {i : Nat} (h : i < 38) :
    bitAt (syndrome cfg d p) i = (bitAt d i).xor ((previousBit cfg d i).xor (bitAt p i)) :=
  bitAt_bitsOfFn _ h

theorem bitAt_correct {mode : ParityMode} {d syn : Bits 38} {i : Nat} (h : i < 38) :
    bitAt (correct mode d syn) i = (bitAt d i).xor (flips mode syn i) :=
  bitAt_bitsOfFn _ h

theorem flips_twoPass {syn : Bits 38} {i : Nat} (h : i < 37) :
    flips .twoPass syn i = (bitAt syn i && bitAt syn (i + 1)) := by
  simp [flips, h]

theorem flips_sequential {syn : Bits 38} {i : Nat} (h : i < 37) :
    flips .sequentialRecompute syn i = firesSequential syn i := by
  simp [flips, h]

/-- `d[37]` is never flipped (R68 c). -/
theorem flips_last (mode : ParityMode) (syn : Bits 38) : flips mode syn 37 = false := by
  simp [flips]

/-- Under either mode no flip happens without two adjacent syndrome bits (R68 d). -/
theorem flips_eq_false {mode : ParityMode} {syn : Bits 38} {i : Nat}
    (h : (bitAt syn i && bitAt syn (i + 1)) = false) : flips mode syn i = false := by
  cases mode <;> simp only [flips]
  · simp_all
  · cases i <;> simp_all [firesSequential]

/-- Under either mode two adjacent syndrome bits with none below them cause a flip. -/
theorem flips_eq_true {mode : ParityMode} {syn : Bits 38} {i : Nat} (hi : i < 37)
    (below : ∀ k, k + 1 = i → bitAt syn k = false) (h : (bitAt syn i && bitAt syn (i + 1)) = true) :
    flips mode syn i = true := by
  cases mode with
  | twoPass => simp_all [flips]
  | sequentialRecompute =>
    cases i with
    | zero => simp_all [flips, firesSequential]
    | succ k =>
      have : firesSequential syn k = false := by cases k <;> simp_all [firesSequential]
      simp_all [flips, firesSequential]

/-! ## DECODE -/

/-- The values of the step after CRCCHK, as the stages leave them (R85). -/
def stagedWires (cfg : Config) (x : Transients) : Transients :=
  let seq := deinterleave cfg.deintMap x.word
  let d := dataBits seq
  let p := parityBits seq
  let syn := syndrome cfg d p
  let c := correct cfg.parityMode d syn
  let r := crcRegs cfg (coveredBits c)
  { word := x.word, seq := seq, d := d, p := p, syn := syndromeAfter cfg.parityMode syn, c := c
    id := fieldId cfg c, g := fieldG cfg c, cmd := fieldCmd cfg c, crc := fieldCrc cfg c
    acc := r.acc, op := r.op, crcCalc := r.acc, crcOk := crcMatches r.acc (fieldCrc cfg c) }

/-- DECODE fills in the values of the step and then accepts or rejects. -/
theorem execDecode_stages (s : State) :
    execDecode s = acceptOrReject (s.setWires (stagedWires s.cfg s.wires)) := by
  simp only [execDecode, runAll_cons, execDeint, execSplit, execSynd, execPcorr, execXtrId, execXtrG,
    execXtrCmd, execXtrCrc, execCrcgen, execCrcchk, andThen_next, State.setWires_cfg, State.setWires_wires,
    State.setWires_setWires]
  exact andThen_stop _

/-- The values after CRCCHK are those of Decode76 (R85). -/
theorem stagedWires_decode76 (cfg : Config) (x : Transients) :
    (stagedWires cfg x).crcOk = (decode76 cfg x.word).crcOk ∧
      (⟨(stagedWires cfg x).id, (stagedWires cfg x).g, (stagedWires cfg x).cmd,
        (stagedWires cfg x).crc⟩ : Osw) = (decode76 cfg x.word).osw :=
  ⟨rfl, rfl⟩

end Sys2Proof.Machine
end

