-- ==== Sys2Proof/Laws/PerInstr.lean ====
section
/-! SUPPORT. A law of every operation as syntax: the code the encoder gives it fits the mask and pattern of its row
in opcode_table.json. -/

namespace Sys2Proof.Laws.FitsTable

/-- Whether a code has the format of the operation's row and carries its pattern under its mask. DECODE's row has no
code. -/
def fits : Instr → Code → Bool
  | .sym sy, .sym v => v.getLsbD 1 == sy.sync && v.getLsbD 0 == sy.pol
  | .scan _, .dispatch dw => dw &&& 0x6#3 == 0x0#3
  | .acq _, .dispatch dw => dw &&& 0x6#3 == 0x2#3
  | .shift _ _, .dispatch dw => dw &&& 0x4#3 == 0x4#3
  | .word, .stage place sw => place == 1 && sw &&& 0x2#2 == 0x2#2
  | .deint, .stage place sw => place == 2 && sw &&& 0x2#2 == 0x2#2
  | .split, .stage place sw => place == 3 && sw &&& 0x2#2 == 0x2#2
  | .synd, .stage place sw => place == 4 && sw &&& 0x2#2 == 0x2#2
  | .pcorr, .stage place sw => place == 5 && sw &&& 0x2#2 == 0x2#2
  | .xtrId, .stage place sw => place == 6 && sw &&& 0x2#2 == 0x2#2
  | .xtrG, .stage place sw => place == 7 && sw &&& 0x2#2 == 0x2#2
  | .xtrCmd, .stage place sw => place == 8 && sw &&& 0x2#2 == 0x2#2
  | .xtrCrc, .stage place sw => place == 9 && sw &&& 0x2#2 == 0x2#2
  | .crcgen, .stage place sw => place == 10 && sw &&& 0x2#2 == 0x2#2
  | .crcchk, .stage place sw => place == 11 && sw &&& 0x2#2 == 0x2#2
  | .accept, .stage place sw => place == 12 && sw &&& 0x3#2 == 0x3#2
  | .reject, .stage place sw => place == 12 && sw &&& 0x3#2 == 0x2#2
  | .reset, .call .reset => true
  | .ratio, .call .ratio => true
  | .intlv seq, .call (.intlv seq') => seq == seq'
  | .penc c, .call (.penc c') => c == c'
  | .fpack id g cmd u, .call (.fpack id' g' cmd' u') => id == id' && g == g' && cmd == cmd' && u == u'
  | .encode id g cmd u, .call (.encode id' g' cmd' u') => id == id' && g == g' && cmd == cmd' && u == u'
  | _, _ => false

/-- The code of `i`, where it has one, fits its row. -/
def Statement (i : Instr) : Prop := ∀ c, Sys2Proof.encode i = some c → fits i c = true

theorem sym (sy : Symbol) : Statement (.sym sy) := by
  obtain ⟨_ | _, _ | _⟩ := sy <;> rintro c ⟨⟩ <;> decide
theorem scan (pol : Bit) : Statement (.scan pol) := by
  cases pol <;> rintro c ⟨⟩ <;> decide
theorem acq (pol : Bit) : Statement (.acq pol) := by
  cases pol <;> rintro c ⟨⟩ <;> decide
theorem shift (sync pol : Bit) : Statement (.shift sync pol) := by
  cases sync <;> cases pol <;> rintro c ⟨⟩ <;> decide
theorem word : Statement .word := by rintro c ⟨⟩; decide
theorem deint : Statement .deint := by rintro c ⟨⟩; decide
theorem split : Statement .split := by rintro c ⟨⟩; decide
theorem synd : Statement .synd := by rintro c ⟨⟩; decide
theorem pcorr : Statement .pcorr := by rintro c ⟨⟩; decide
theorem xtrId : Statement .xtrId := by rintro c ⟨⟩; decide
theorem xtrG : Statement .xtrG := by rintro c ⟨⟩; decide
theorem xtrCmd : Statement .xtrCmd := by rintro c ⟨⟩; decide
theorem xtrCrc : Statement .xtrCrc := by rintro c ⟨⟩; decide
theorem crcgen : Statement .crcgen := by rintro c ⟨⟩; decide
theorem crcchk : Statement .crcchk := by rintro c ⟨⟩; decide
theorem accept : Statement .accept := by rintro c ⟨⟩; decide
theorem reject : Statement .reject := by rintro c ⟨⟩; decide
theorem decode : Statement .decode := by rintro c ⟨⟩
theorem reset : Statement .reset := by rintro c ⟨⟩; rfl
theorem ratio : Statement .ratio := by rintro c ⟨⟩; rfl
theorem intlv (seq : Bits 76) : Statement (.intlv seq) := by rintro c ⟨⟩; simp [fits]
theorem penc (c : Bits 38) : Statement (.penc c) := by rintro c ⟨⟩; simp [fits]
theorem fpack (id : BitVec 16) (g : Bit) (cmd : BitVec 10) (u : Option Bit) :
    Statement (.fpack id g cmd u) := by rintro c ⟨⟩; simp [fits]
theorem encode (id : BitVec 16) (g : Bit) (cmd : BitVec 10) (u : Option Bit) :
    Statement (.encode id g cmd u) := by rintro c ⟨⟩; simp [fits]

end Sys2Proof.Laws.FitsTable
end

