-- ==== Sys2Proof/Tests/Slice0.lean ====
section
/-! SUPPORT. Small tests of one step each, expected values from 95_test_vectors.md and the rules' own examples; words
written out from 30_encoding.md; ill-formed terms that the checks refuse; for each statement with hypotheses a state and
operands that meet them. -/

open Sys2Proof Sys2Proof.Machine

namespace Sys2Proof.Tests

set_option Elab.async false

/-! ## Well-formedness -/

/-- A geometry of five lanes does not fill 76 bits. -/
theorem test_geometry_refused : Geometry.wellFormed { Geometry.sz with lanes := 5 } = false := by decide
theorem test_geometry_fields_refused : Geometry.wellFormed { Geometry.sz with cmdW := 11 } = false := by decide
theorem test_geometry_cover_refused : Geometry.wellFormed { Geometry.sz with crcCover := 26 } = false := by decide
theorem test_literals_refused : Literals.wellFormed { Literals.sz with crcPoly := 0x226#10 } = false := by decide
theorem test_crcFieldXor_refused :
    Config.crcFieldXorDefined { Config.default with crcFieldXor := 0x001#10 } = false := by decide
theorem test_config_refused :
    Config.wellFormed { Config.default with lit := { Literals.sz with gXor := false } } = false := by decide
theorem test_config_accepted :
    Config.wellFormed { Config.default with crcFieldXor := 0x32A#10, deintMap := .block19 } = true := by decide

/-! ## Words written out from R42 and R48 -/

theorem test_decode_sym : decode (.sym 0b01#2) = .ok (.sym ⟨false, true⟩) := by decide
theorem test_decode_scan : decode (.dispatch 0b000#3) = .ok (.scan false) := by decide
theorem test_decode_acq : decode (.dispatch 0b011#3) = .ok (.acq true) := by decide
theorem test_decode_shift : decode (.dispatch 0b110#3) = .ok (.shift true false) := by decide
theorem test_decode_word : decode (.stage 1 0b10#2) = .ok .word := by decide
theorem test_decode_deint : decode (.stage 2 0b11#2) = .ok .deint := by decide
theorem test_decode_split : decode (.stage 3 0b10#2) = .ok .split := by decide
theorem test_decode_synd : decode (.stage 4 0b10#2) = .ok .synd := by decide
theorem test_decode_pcorr : decode (.stage 5 0b10#2) = .ok .pcorr := by decide
theorem test_decode_xtrId : decode (.stage 6 0b10#2) = .ok .xtrId := by decide
theorem test_decode_xtrG : decode (.stage 7 0b10#2) = .ok .xtrG := by decide
theorem test_decode_xtrCmd : decode (.stage 8 0b10#2) = .ok .xtrCmd := by decide
theorem test_decode_xtrCrc : decode (.stage 9 0b10#2) = .ok .xtrCrc := by decide
theorem test_decode_crcgen : decode (.stage 10 0b11#2) = .ok .crcgen := by decide
theorem test_decode_crcchk : decode (.stage 11 0b10#2) = .ok .crcchk := by decide
theorem test_decode_accept : decode (.stage 12 0b11#2) = .ok .accept := by decide
theorem test_decode_reject : decode (.stage 12 0b10#2) = .ok .reject := by decide
theorem test_decode_no_stage : decode (.stage 5 0b01#2) = .error .noStageRuns := by decide
theorem test_decode_place_13 : decode (.stage 13 0b11#2) = .error .noSuchStage := by decide
theorem test_decode_reset : decode (.call .reset) = .ok .reset := by decide
theorem test_decode_ratio : decode (.call .ratio) = .ok .ratio := by decide
theorem test_decode_intlv : decode (.call (.intlv 5#76)) = .ok (.intlv 5#76) := by decide
theorem test_decode_penc : decode (.call (.penc 5#38)) = .ok (.penc 5#38) := by decide
theorem test_decode_fpack :
    decode (.call (.fpack 1#16 true 2#10 none)) = .ok (.fpack 1#16 true 2#10 none) := by decide
theorem test_decode_encode :
    decode (.call (.encode 1#16 true 2#10 (some true))) = .ok (.encode 1#16 true 2#10 (some true)) := by decide
theorem test_encode_decode_none : encode .decode = none := by decide
theorem test_table_word_shift : decodeTableWord 8 0b101 = some (.shift false true) := by decide
theorem test_table_word_refused : decodeTableWord 8 8 = none := by decide
theorem test_dispatch_word : dispatchWord .tracking ⟨true, false⟩ = 0b110#3 := by decide

/-! ## One step -/

/-- The next state of an outcome. -/
def nextOf : Outcome → Option State
  | .next s => some s
  | .fault _ => none
  | .refused _ => none

/-- Word A of T3. -/
def wordA : Bits 76 := 0x0515AA5A055432CA808#76

/-- A state after reset but for the block. -/
def blockState (mode : Mode) (buf : List Bit) (valid errors : Nat) : State :=
  { State.reset with
    block := { mode := mode, buf := buf, cnt := buf.length, valid := valid, errors := errors } }

/-- Tracking, with all but the last bit of a word. -/
def oneShort (w : Bits 76) (valid errors : Nat) : State :=
  blockState .tracking ((wordBitList w).take 75) valid errors

/-- A state with given values of the step. -/
def wired (x : Transients) : State := { State.reset with wires := x }

def corrected : Bits 38 := 0b00100001111100110000010001000110010000#38

/-- R54, example. -/
theorem test_scan :
    nextOf (exec (.sym ⟨false, true⟩) (blockState .unsynced [] 3 1)) = some (blockState .unsynced [] 3 1) := by
  decide +kernel
/-- R55, example. -/
theorem test_acq :
    nextOf (exec (.sym ⟨true, false⟩) State.reset) = some (blockState .tracking [true] 0 0) := by decide +kernel
/-- R56, example: the flag does nothing. -/
theorem test_shift_flagged :
    nextOf (exec (.sym ⟨true, true⟩) (blockState .tracking [true] 0 0)) =
      some (blockState .tracking [true, false] 0 0) := by decide +kernel
/-- T13, row 7. -/
theorem test_shift_74 :
    (nextOf (exec (.shift false true) (blockState .tracking (List.replicate 74 true) 0 0))).map (·.block.cnt) =
      some 75 := by decide +kernel
/-- R82, example: word A completes and is accepted. -/
theorem test_word_accepted :
    (nextOf (exec (.sym ⟨false, true⟩) (oneShort wordA 0 0))).map (fun t => (t.block, t.outbox, t.wires)) =
      some ({ mode := .unsynced, buf := [], cnt := 0, valid := 1, errors := 0 },
        [.osw ⟨0x1234#16, true, 0x308#10, 0x337#10⟩], Transients.idle) := by decide +kernel
/-- R83, example: program P2's second word. -/
theorem test_word_rejected :
    (nextOf (exec (.sym ⟨true, false⟩) (oneShort 0x9D485441FB8B238B083#76 1 0))).map
      (fun t => (t.block.valid, t.block.errors, t.outbox)) = some (1, 1, [.crcfail 1 1]) := by decide +kernel
/-- A step takes the symbol at the port (P1, symbol 3). -/
theorem test_step_acq :
    (nextOf (step (State.reset.deliver [⟨true, true⟩, ⟨false, true⟩]))).map (fun t => (t.block.buf, t.inbox)) =
      some ([false], [.symbol ⟨false, true⟩]) := by decide +kernel
theorem test_step_placed_shift :
    (nextOf (step (State.reset.withFetchWord 8 0b100))).map (fun t => (t.block.mode, t.block.buf, t.inbox)) =
      some (.tracking, [true], []) := by decide +kernel
theorem test_step_call_ratio :
    (nextOf (step { blockState .unsynced [] 3 1 with inbox := [.call .ratio] })).map (·.replies) =
      some [.ratio (1 / 4)] := by decide +kernel
/-- R57: WORD leaves `W` and the decoded fields. -/
theorem test_word_takes :
    (nextOf (exec .word (blockState .tracking (wordBitList wordA) 0 0))).map
      (fun t => (t.wires.word, t.block.mode, t.block.cnt, t.block.valid)) =
      some (wordA, .unsynced, 0, 1) := by decide +kernel
/-- T2: a single 1 at `W[1]` goes to `S[19]`. -/
theorem test_deint :
    (nextOf (exec .deint (wired { Transients.idle with word := 0x4000000000000000000#76 }))).map (·.wires.seq) =
      some 0x0000100000000000000#76 := by decide +kernel
/-- R66, example. -/
theorem test_split :
    (nextOf (exec .split (wired { Transients.idle with seq := 0x0D03AA4E40343439340#76 }))).map
      (fun t => (t.wires.d, slice t.wires.p 0 4)) = some (corrected, 0b0011#4) := by decide +kernel
/-- T10: all ones. -/
theorem test_synd :
    (nextOf (exec .synd (wired { Transients.idle with d := 0x3FFFFFFFFF#38, p := 0x3FFFFFFFFF#38 }))).map
      (·.wires.syn) = some 0x1FFFFFFFFF#38 := by decide +kernel
/-- R68, example: bit 5 flipped back. -/
theorem test_pcorr :
    (nextOf (exec .pcorr (wired { Transients.idle with
      d := 0b00100101111100110000010001000110010000#38, syn := errorsAt 38 [5, 6] }))).map (·.wires.c) =
      some corrected := by decide +kernel
/-- T5j under `sequential_recompute`: `d[5]` and `d[7]` flip, `s[6]` and `s[8]` are cleared. -/
theorem test_pcorr_sequential :
    (nextOf (exec .pcorr { wired { Transients.idle with syn := errorsAt 38 [5, 6, 7, 8] } with
      cfg := { Config.default with parityMode := .sequentialRecompute } })).map
      (fun t => (t.wires.c, t.wires.syn)) = some (errorsAt 38 [5, 7], errorsAt 38 [5, 7]) := by decide +kernel
/-- R73 to R76, examples. -/
theorem test_fields :
    (nextOf (exec .xtrId (wired { Transients.idle with c := corrected }))).map (·.wires.id) = some 0x1234#16 ∧
    (nextOf (exec .xtrG (wired { Transients.idle with c := corrected }))).map (·.wires.g) = some true ∧
    (nextOf (exec .xtrCmd (wired { Transients.idle with c := corrected }))).map (·.wires.cmd) = some 0x308#10 ∧
    (nextOf (exec .xtrCrc (wired { Transients.idle with c := corrected }))).map (·.wires.crc) = some 0x337#10 := by
  decide +kernel
/-- T14: the other bit order. -/
theorem test_fields_lsb_first :
    (nextOf (exec .xtrId { wired { Transients.idle with c := corrected } with
      cfg := { Config.default with fieldMsbFirst := false } })).map (·.wires.id) = some 0xFC43#16 := by
  decide +kernel
/-- R79, example, and the last value of T11. -/
theorem test_crcgen :
    (nextOf (exec .crcgen (wired { Transients.idle with c := corrected }))).map
      (fun t => (t.wires.crcCalc, t.wires.acc, t.wires.op)) = some (0x337#10, 0x337#10, 0x04B#10) := by
  decide +kernel
/-- R81, examples. -/
theorem test_crcchk :
    (nextOf (exec .crcchk (wired { Transients.idle with crcCalc := 0x1B4#10, crc := 0x337#10, crcOk := true }))).map
      (·.wires.crcOk) = some false := by decide +kernel
theorem test_accept :
    (nextOf (exec .accept (wired { Transients.idle with id := 5#16, cmd := 3#10, crc := 9#10 }))).map
      (fun t => (t.block.valid, t.outbox)) = some (1, [.osw ⟨5#16, false, 3#10, 9#10⟩]) := by decide +kernel
theorem test_reject :
    (nextOf (exec .reject (blockState .unsynced [] 2 4))).map (fun t => (t.block.errors, t.outbox)) =
      some (5, [.crcfail 5 2]) := by decide +kernel
/-- T8: four changes pass. -/
theorem test_decode_undetected :
    (nextOf (exec .decode (wired { Transients.idle with word := 0x8F196212055432CA84C#76 }))).map (·.outbox) =
      some [.osw ⟨0xB224#16, true, 0x208#10, 0x337#10⟩] := by decide +kernel
/-- T5i: two channel errors three bits apart in the syndrome. -/
theorem test_decode_t5i :
    (nextOf (exec .decode (wired { Transients.idle with word := 0x0515AA5A05D432C2808#76 }))).map
      (fun t => (t.wires.id, t.wires.crcCalc, t.wires.crcOk)) = some (0x1034#16, 0x053#10, false) := by
  decide +kernel
/-- Word A with an error in `p[36]` alone is accepted (R69 c, T6); with one in `p[37]` too, it is rejected (T5m). The
two words differ in `p[37]` only (log entry 19). -/
theorem test_decode_last_pair :
    (decode76 Config.default 0x0515AA5A055432CA908#76).crcOk = true ∧
    (decode76 Config.default 0x0515AA5A055432CA909#76).crcOk = false ∧
    0x0515AA5A055432CA908#76 ^^^ errorsAt 76 [75] = 0x0515AA5A055432CA909#76 := by decide +kernel
/-- T14: the other deinterleave map. -/
theorem test_decode_block19 :
    (decode76 { Config.default with deintMap := .block19 } wordA).osw = ⟨0x52D6#16, true, 0x339#10, 0x1A6#10⟩ := by
  decide +kernel
/-- T14: `PARITY_INIT = 1`. -/
theorem test_decode_parityInit :
    (decode76 { Config.default with parityInit := true } 0x051DAA5A055432CA808#76).crcOk = false ∧
    (decode76 Config.default 0x051DAA5A055432CA808#76).crcOk = true := by decide +kernel
/-- R104, example. -/
theorem test_reset :
    nextOf (exec .reset (blockState .tracking [true, false] 7 8)) = some State.reset := by decide +kernel
/-- T12. -/
theorem test_ratio :
    (nextOf (exec .ratio (blockState .unsynced [] 2 1))).map (·.replies) = some [.ratio (1 / 3)] ∧
    (nextOf (exec .ratio State.reset)).map (·.replies) = some [.ratio 0] := by decide +kernel
/-- R63, R71, R78, R88: the examples. -/
theorem test_intlv :
    (nextOf (exec (.intlv 0x0D03AA4E40343439340#76) State.reset)).map (·.replies) =
      some [.controlWord wordA] := by decide +kernel
theorem test_penc :
    (nextOf (exec (.penc corrected) State.reset)).map (·.replies) =
      some [.sequential 0x0D03AA4E40343439340#76] := by decide +kernel
theorem test_fpack :
    (nextOf (exec (.fpack 0x1234#16 true 0x308#10 (some false)) State.reset)).map (·.replies) =
      some [.dataWord corrected] := by decide +kernel
theorem test_encode :
    (nextOf (exec (.encode 0x33C7#16 true 0x32A#10 none) State.reset)).map (·.replies) =
      some [.controlWord 0x0001110011110010000#76] := by decide +kernel
/-- R52, example. -/
theorem test_stimulus_word :
    digitsOfSymbols (StimulusLine.word 0x8000000000000000000#76).expand = 2 :: List.replicate 75 1 := by
  decide +kernel
theorem test_stimulus_digits : symbolsOfDigits [0, 3, 4] = none ∧
    symbolsOfDigits [0, 3] = some [⟨false, false⟩, ⟨true, true⟩] := by decide +kernel
/-- R53: the index of the symbol whose step emitted the event. -/
theorem test_trace :
    traceFrom 77 (oneShort wordA 0 0) [⟨false, true⟩, ⟨false, false⟩] =
      [⟨77, .osw ⟨0x1234#16, true, 0x308#10, 0x337#10⟩⟩] := by decide +kernel
theorem test_percentage : (Event.crcfail 1 3).percentage = some 25 := by decide +kernel
theorem test_condition_labels :
    Condition.framingError.label = "E0" ∧ (Condition.integrityError 1 0).label = "E1" := by decide

/-! ## The hypotheses of the statements can be met -/

/-- An UNSYNCED and a TRACKING state that meet the invariant, the latter at both ends of its range. -/
theorem witness_TransitionTable :
    State.reset.Inv ∧ State.reset.block.mode = .unsynced ∧
    (blockState .tracking [true] 0 0).Inv ∧ (blockState .tracking (List.replicate 74 true) 0 0).Inv ∧
    (oneShort wordA 0 0).Inv ∧ (oneShort wordA 0 0).block.cnt = 75 ∧
    State.Inv { blockState .tracking [] 0 0 with cfg := { Config.default with syncSymbolIsData := false } } := by
  decide +kernel
theorem witness_ParametersNeverChange :
    (nextOf (exec .reset State.reset)).isSome ∧ (nextOf (step State.reset)).isSome := by decide +kernel
theorem witness_DecodeEncodeAgree :
    Instr.wellFormed (.shift true true) = true ∧ encode (.shift true true) = some (.dispatch 0b111#3) := by decide
theorem witness_PauseChangesNothing : State.reset.inbox = [] := rfl
theorem witness_StepRunsSelectedOperation :
    (State.reset.deliver [⟨true, false⟩]).inbox = [.symbol ⟨true, false⟩] ∧
    nextOf (exec (decodeRequest .unsynced (.symbol ⟨true, false⟩)) State.reset) =
      some (blockState .tracking [true] 0 0) := by decide +kernel
theorem witness_DispatchedStepIsSymbolStep :
    (State.reset.deliver [⟨false, false⟩]).inbox = .symbol ⟨false, false⟩ :: [] := rfl
theorem witness_AcqEntersTracking :
    State.reset.cfg.syncSymbolIsData = true ∧
    ({ State.reset with cfg := { Config.default with syncSymbolIsData := false } } : State).cfg.syncSymbolIsData =
      false := by decide
theorem witness_ShiftAppendsLogicalBit :
    (blockState .tracking [] 0 0).block.cnt = 0 ∧
    (blockState .tracking (List.replicate 74 true) 0 0).block.cnt ≤ 74 ∧
    (oneShort wordA 0 0).block.cnt = (oneShort wordA 0 0).block.buf.length ∧
    (oneShort wordA 0 0).block.cnt = 75 := by decide +kernel
theorem witness_WordTakesBufferAndDecodes :
    (blockState .tracking (wordBitList wordA) 0 0).block.cnt = 76 ∧
    (blockState .tracking (wordBitList wordA) 0 0).block.buf.length = 76 := by decide +kernel
theorem witness_CompletingSymbolDecodesWord :
    (oneShort wordA 0 0).block.mode = .tracking ∧ (oneShort wordA 0 0).block.cnt = 75 ∧
    (oneShort wordA 0 0).block.buf.length = 75 ∧ (oneShort wordA 0 0).CanCount := by decide +kernel
theorem witness_IgnoredInputsHaveNoEffect :
    State.reset.block.mode = .unsynced ∧ (oneShort wordA 0 0).block.mode = .tracking ∧
    ({ State.reset with cfg := { Config.default with syncSymbolIsData := false } } : State).block.mode =
      .unsynced := by decide +kernel
/-- The two maps, the two parity modes, the two bit orders. -/
theorem witness_parameter_values :
    State.reset.cfg.deintMap = .lane4 ∧
    ({ State.reset with cfg := { Config.default with deintMap := .block19 } } : State).cfg.deintMap = .block19 ∧
    State.reset.cfg.parityMode = .twoPass ∧
    ({ State.reset with cfg := { Config.default with parityMode := .sequentialRecompute } } : State).cfg.parityMode =
      .sequentialRecompute ∧
    State.reset.cfg.fieldMsbFirst = true ∧
    ({ State.reset with cfg := { Config.default with fieldMsbFirst := false } } : State).cfg.fieldMsbFirst = false ∧
    State.reset.cfg.lit = Literals.sz ∧ State.reset.cfg.crcFieldXor = 0x3FF#10 := by decide
theorem witness_ParityModesAgreeOnShortRuns :
    ∀ i, i < 36 → (bitAt (errorsAt 38 [0, 1, 36, 37]) i && bitAt (errorsAt 38 [0, 1, 36, 37]) (i + 1) &&
      bitAt (errorsAt 38 [0, 1, 36, 37]) (i + 2)) = false := by decide +kernel
/-- An isolated error in `d[0]`, the next error three pairs away. -/
theorem witness_IsolatedErrorsAreHarmless_first :
    (∀ j, j < 38 → j ≠ 0 ∧ 0 < j + 3 ∧ j < 3 → bitAt (errorsAt 38 [0, 3]) j = false ∧ bitAt (errorsAt 38 []) j = false) ∧
    bitAt (errorsAt 38 [0, 3]) 0 = true ∧ bitAt (errorsAt 38 []) 0 = false := by
  decide +kernel
/-- In `d[36]`, the last data bit that can be repaired. -/
theorem witness_IsolatedErrorsAreHarmless_last :
    (∀ j, j < 38 → j ≠ 36 ∧ 36 < j + 3 ∧ j < 39 → bitAt (errorsAt 38 [36]) j = false ∧ bitAt (errorsAt 38 [33]) j = false) ∧
    bitAt (errorsAt 38 [36]) 36 = true ∧ bitAt (errorsAt 38 [33]) 36 = false := by
  decide +kernel
/-- In `d[37]`. -/
theorem witness_IsolatedErrorsAreHarmless_unused :
    (∀ j, j < 38 → j ≠ 37 ∧ 37 < j + 3 ∧ j < 40 → bitAt (errorsAt 38 [37]) j = false ∧ bitAt (errorsAt 38 [34]) j = false) ∧
    bitAt (errorsAt 38 [37]) 37 = true ∧ bitAt (errorsAt 38 [34]) 37 = false := by
  decide +kernel
/-- In `p[37]`. -/
theorem witness_IsolatedErrorsAreHarmless_parity :
    (∀ j, j < 38 → j ≠ 37 ∧ 37 < j + 3 ∧ j < 40 → bitAt (errorsAt 38 []) j = false ∧ bitAt (errorsAt 38 [37]) j = false) ∧
    bitAt (errorsAt 38 []) 37 = false ∧ bitAt (errorsAt 38 [37]) 37 = true := by
  decide +kernel
/-- For InteractingErrorsTable: the first and the last index of its conditional rows. -/
theorem witness_InteractingErrorsTable :
    (0 ≤ 36 ∧ 36 ≤ 37) ∧ (0 ≤ 35 ∧ 35 ≤ 37) ∧ (1 ≤ 1 ∧ 1 ≤ 36) ∧ (0 ≤ 34 ∧ 34 ≤ 37) ∧
    syndrome Config.default (errorsAt 38 [34, 36]) (errorsAt 38 []) = errorsAt 38 [34, 35, 36, 37] := by decide +kernel
theorem witness_LastPairHarmlessWithoutSyndrome36 :
    Config.default.deintMap = .lane4 ∧
    (∀ j, j < 76 → j ≠ 71 → j ≠ 75 → bitAt wordA j = bitAt (wordA ^^^ errorsAt 76 [71, 75]) j) ∧
    bitAt (syndrome Config.default (dataBits (deinterleave .lane4 wordA))
      (parityBits (deinterleave .lane4 wordA))) 36 = false := by decide +kernel
theorem witness_DataBit37ReachesNothing :
    ∀ i, i < 37 → bitAt corrected i = bitAt (corrected ^^^ errorsAt 38 [37]) i := by decide +kernel
theorem witness_AcceptCountsAndEmits : State.reset.CanCount := by decide
theorem witness_RejectCountsAndReports :
    State.CanCount { blockState .unsynced [] 200 54 with cfg := { Config.default with cntW := some 8 } } := by
  decide +kernel
theorem witness_CountingBeyondWidthStillRuns :
    ¬ State.CanCount { blockState .unsynced [] 200 55 with cfg := { Config.default with cntW := some 8 } } ∧
    2 ^ 8 ≤ (blockState .unsynced [] 200 56).block.valid + (blockState .unsynced [] 200 56).block.errors := by
  decide +kernel
/-- One, two and three changes of an accepted data word. -/
theorem witness_ThreeChangesAreDetectedFourMayNot :
    (readDataWord Config.default corrected).crcOk = true ∧
    differences corrected (corrected ^^^ errorsAt 38 [36]) = 1 ∧
    differences corrected (corrected ^^^ errorsAt 38 [0, 36]) = 2 ∧
    differences corrected (corrected ^^^ errorsAt 38 [0, 17, 36, 37]) = 3 := by decide +kernel
theorem witness_DecodeAcceptsOrRejects :
    (wired { Transients.idle with word := wordA }).CanCount ∧ (decode76 Config.default wordA).crcOk = true ∧
    (decode76 Config.default 0#76).crcOk = false := by decide +kernel
theorem witness_EncodeDecodeRoundTrip :
    encodeWord Config.default 1#16 true 2#10 (some false) = encodeWord Config.default 1#16 true 2#10 (some false) :=
  rfl
theorem witness_BurstsOfFourAreRepaired :
    Config.default.deintMap = .lane4 ∧
    (∀ i, i < 76 → bitAt (errorsAt 76 [72, 73, 75]) i = true → 72 ≤ i ∧ i ≤ 72 + 3) := by decide +kernel
/-- One symbol missing, and all but the flagged one missing. -/
theorem witness_MissingSymbolsCompleteWord :
    (oneShort wordA 0 0).Inv ∧ (oneShort wordA 0 0).CanCount ∧ (oneShort wordA 0 0).block.mode = .tracking ∧
    (oneShort wordA 0 0).block.cnt + [(⟨true, true⟩ : Symbol)].length = 76 ∧
    ((oneShort wordA 0 0).deliver [⟨true, true⟩]).inbox = [(⟨true, true⟩ : Symbol)].map Request.symbol ++ [] ∧
    (blockState .tracking [false] 0 0).Inv ∧
    (blockState .tracking [false] 0 0).block.cnt + (List.replicate 75 (⟨false, true⟩ : Symbol)).length = 76 := by
  decide +kernel
theorem witness_EncodedWordIsDelivered :
    State.reset.Inv ∧ State.reset.CanCount ∧ State.reset.block.mode = .unsynced ∧
    (State.reset.deliver (StimulusLine.word wordA).expand).inbox =
      (StimulusLine.word wordA).expand.map Request.symbol ++ [] ∧
    (StimulusLine.word wordA).expand.length = 76 ∧ (StimulusLine.wordx wordA).expand.length = 77 := by
  decide +kernel
theorem witness_EveryWordNeedsItsFlag :
    (∀ sy, sy ∈ (StimulusLine.idle 3 true).expand → sy.sync = false) ∧ State.reset.Inv ∧
    (State.reset.deliver (StimulusLine.idle 3 true).expand).inbox =
      (StimulusLine.idle 3 true).expand.map Request.symbol ++ [] := by decide +kernel
theorem witness_StepKeepsInvariant :
    (State.reset.deliver [⟨true, false⟩]).Inv ∧ (nextOf (step (State.reset.deliver [⟨true, false⟩]))).isSome := by
  decide +kernel
/-- For OneCountPerCompletedWord, AtMostOneEventPerStep and CountersNeverDecide: a step that completes a word and one
that does not. -/
theorem witness_symbol_steps :
    (oneShort wordA 0 0).cfg.cntW = none ∧ (nextOf (exec (.sym ⟨false, true⟩) (oneShort wordA 0 0))).isSome ∧
    (nextOf (exec (.sym ⟨false, true⟩) (oneShort wordA 5 6))).isSome ∧
    (nextOf (exec (.sym ⟨true, true⟩) State.reset)).isSome := by decide +kernel
theorem witness_RatioIsExact :
    countsExactly State.reset.cfg 0 = true ∧ countsExactly (blockState .unsynced [] 3 1).cfg 4 = true := by
  decide
theorem witness_PercentageIsHundredTimesRatio :
    (blockState .unsynced [] 3 0).cfg.cntW = none ∧
    nextOf (exec .reject (blockState .unsynced [] 3 0)) =
      some { blockState .unsynced [] 3 1 with outbox := [.crcfail 1 3] } ∧
    (nextOf (exec .ratio (blockState .unsynced [] 3 1))).map (·.replies) = some [.ratio (1 / 4)] := by
  decide +kernel

end Sys2Proof.Tests
end

section
/-! The parameters that the machine carries after reset (R4, R5): what each check of `WellFormed.lean` asks for, and
that the defaults pass it. -/

namespace Sys2Proof

theorem Literals.wellFormed_iff (l : Literals) : l.wellFormed = true ↔ l = Literals.sz := by
  simp [Literals.wellFormed]

theorem Config.wellFormed_iff (cfg : Config) :
    cfg.wellFormed = true ↔
      (cfg.crcFieldXor = 0x3FF#10 ∨ cfg.crcFieldXor = 0x000#10 ∨ cfg.crcFieldXor = 0x32A#10) ∧
        cfg.lit = Literals.sz := by
  simp [Config.wellFormed, Config.crcFieldXorDefined, Literals.wellFormed_iff, or_assoc]

/-- The four equations of R4's "Consistency the values must keep". -/
theorem Geometry.wellFormed_iff (z : Geometry) :
    z.wellFormed = true ↔
      z.lanes * z.laneBits = z.wordBits ∧ z.wordBits = 2 * z.pairs ∧
        z.idW + z.gW + z.cmdW + z.crcW + 1 = z.pairs ∧ z.idW + z.gW + z.cmdW = z.crcCover := by
  simp [Geometry.wellFormed, and_assoc]

/-- The defaults are defined values: `CRC_FIELD_XOR` is the first of R5's three, the literals are R4's. -/
theorem Config.default_wellFormed : Config.default.wellFormed = true :=
  (Config.wellFormed_iff _).mpr ⟨.inl rfl, rfl⟩

/-- 4 * 19 = 76 = 2 * 38, 16 + 1 + 10 + 10 + 1 = 38 and 16 + 1 + 10 = 27 (R4). -/
theorem Geometry.sz_wellFormed : Geometry.sz.wellFormed = true :=
  (Geometry.wellFormed_iff _).mpr ⟨rfl, rfl, rfl, rfl⟩

namespace Machine

@[simp] theorem State.reset_cfg : State.reset.cfg = Config.default := rfl

/-- Settles O3: reset carries `Config.default`, which is R5's record and passes the check of R4 and R5; the geometry of
R4 keeps its four equations. -/
theorem resetHasDefaultParameters : Obligations.ResetHasDefaultParameters := by
  unfold Obligations.ResetHasDefaultParameters
  rw [State.reset_cfg]
  exact ⟨rfl, Config.default_wellFormed, Geometry.sz_wellFormed⟩

end Machine

end Sys2Proof
end

section
/-! What a step can do, said once: the counters at and beyond their width, the end of a word, the four things a symbol
does (R54 to R57), and the three things a step does (R23, R48, R86). -/

namespace Sys2Proof.Machine

/-! ## Counters of a finite width -/

theorem countsExactly_finite {cfg : Config} {w : Nat} (hw : cfg.cntW = some w) (n : Nat) :
    countsExactly cfg n = decide (n < 2 ^ w) := by
  simp [countsExactly, hw]

/-- Beyond the width, counting an accepted word leaves some value of the width and takes one free value (U6). -/
theorem countValid_beyond {s : State} {w : Nat} (hw : s.cfg.cntW = some w) (hn : ¬ s.CanCount) :
    ∃ v, v < 2 ^ w ∧
      countValid s = (s.setBlock { s.block with valid := v }).setDraws (s.draws + 1) := by
  have hx : countsExactly s.cfg (s.block.valid + s.block.errors + 1) = false := Bool.eq_false_iff.mpr hn
  exact ⟨_, counterAfter_beyond hw hx, by simp only [countValid, hx, Bool.not_false, drawIf_true]; rfl⟩

/-- Beyond the width, counting a rejected word leaves some value of the width and takes one free value (U6). -/
theorem countError_beyond {s : State} {w : Nat} (hw : s.cfg.cntW = some w) (hn : ¬ s.CanCount) :
    ∃ v, v < 2 ^ w ∧
      countError s = (s.setBlock { s.block with errors := v }).setDraws (s.draws + 1) := by
  have hx : countsExactly s.cfg (s.block.valid + s.block.errors + 1) = false := Bool.eq_false_iff.mpr hn
  exact ⟨_, counterAfter_beyond hw hx, by simp only [countError, hx, Bool.not_false, drawIf_true]; rfl⟩

/-- Once the total has left the width, RATIO answers a free value (R113, U6). -/
theorem execRatio_beyond {s : State} (hx : countsExactly s.cfg (s.block.valid + s.block.errors) = false) :
    execRatio s =
      .next ((s.setReplies (s.replies ++ [.ratio (Config.ratioBeyond s.draws)])).setDraws (s.draws + 1)) := by
  simp [execRatio, hx, reply_eq]

/-! ## The end of a word -/

/-- The state after the last place of the stage sequence: one word counted, its event emitted (R82, R83). -/
def wordCounted (s : State) : State :=
  if s.wires.crcOk then emit (.osw ⟨s.wires.id, s.wires.g, s.wires.cmd, s.wires.crc⟩) (countValid s)
  else emit (.crcfail (countError s).block.errors (countError s).block.valid) (countError s)

theorem acceptOrReject_eq (s : State) : acceptOrReject s = .next (wordCounted s) := by
  unfold acceptOrReject wordCounted
  split <;> rfl

/-- Only the counters, the events and the free values differ after the verdict. -/
theorem wordCounted_frame (s : State) :
    (wordCounted s).block.mode = s.block.mode ∧ (wordCounted s).block.buf = s.block.buf ∧
      (wordCounted s).block.cnt = s.block.cnt ∧ (wordCounted s).cfg = s.cfg ∧
      (wordCounted s).wires = s.wires ∧ (wordCounted s).inbox = s.inbox ∧
      (wordCounted s).replies = s.replies := by
  unfold wordCounted
  split
  · simp [emit_eq, countValid_frame]
  · simp [emit_eq, countError_frame]

/-- The verdict raises one counter by one and leaves the other, as long as the count is exact (R82, R83). -/
theorem wordCounted_counts {s : State} (h : s.CanCount) :
    ((wordCounted s).block.valid = s.block.valid + 1 ∧ (wordCounted s).block.errors = s.block.errors) ∨
      ((wordCounted s).block.valid = s.block.valid ∧ (wordCounted s).block.errors = s.block.errors + 1) := by
  unfold wordCounted
  split
  · left
    simp [emit_eq, countValid_eq h]
  · right
    simp [emit_eq, countError_eq h]

theorem execDecode_eq (s : State) :
    execDecode s = .next (wordCounted (s.setWires (stagedWires s.cfg s.wires))) := by
  rw [execDecode_stages, acceptOrReject_eq]

/-- The state in which a completed word has left the buffer (R57) and its stages have run (R85), before the verdict. -/
def wordStaged (s : State) : State :=
  let u := setMode .unsynced (clearBuffer (readWord s))
  u.setWires (stagedWires u.cfg u.wires)

theorem execWord_eq (s : State) : execWord s = .next (wordCounted (wordStaged s)) := by
  rw [execWord, execDecode_eq]
  rfl

/-- R57: the buffer is empty and the mode UNSYNCED before the word is decoded; the counters stand. -/
@[simp] theorem wordStaged_block (s : State) :
    (wordStaged s).block = { s.block with mode := .unsynced, buf := [], cnt := 0 } := rfl

@[simp] theorem wordStaged_cfg (s : State) : (wordStaged s).cfg = s.cfg := rfl

/-! ## ACQ and SHIFT -/

/-- The state after ACQ (R55). -/
def acquired (pol : Bit) (s : State) : State :=
  let t := clearBuffer (setMode .tracking s)
  if s.cfg.syncSymbolIsData then append (logicalBit pol) t else t

theorem execAcq_eq (pol : Bit) (s : State) : execAcq pol s = .next (acquired pol s) := rfl

/-- ACQ leaves the counters and everything outside the block alone. -/
theorem acquired_frame (pol : Bit) (s : State) :
    (acquired pol s).block.valid = s.block.valid ∧ (acquired pol s).block.errors = s.block.errors ∧
      (acquired pol s).cfg = s.cfg := by
  unfold acquired
  split
  · simp [append_frame, clearBuffer_eq, setMode_eq]
  · simp [clearBuffer_eq, setMode_eq]

/-- SHIFT of any but the 76th bit only appends (R56). -/
theorem execShift_appends (sync pol : Bit) {s : State} (h : s.block.cnt ≠ 75) :
    execShift sync pol s = .next (append (logicalBit pol) s) := by
  simp [execShift, wordComplete, append_frame, h]

/-- SHIFT of the 76th bit runs WORD in the same step (R56, R57). -/
theorem execShift_completes (sync pol : Bit) {s : State} (h : s.block.cnt = 75) :
    execShift sync pol s = .next (wordCounted (wordStaged (append (logicalBit pol) s))) := by
  simp [execShift, wordComplete, append_frame, h, execWord_eq]

/-! ## What a symbol does -/

/-- The four rows of R58's table: from which states a symbol takes each, and what it leaves before the values of the
step are forgotten. -/
inductive SymbolEffect (sy : Symbol) (s : State) : State → Prop where
  /-- SCAN (R54). -/
  | ignored (hm : s.block.mode = .unsynced) (hs : sy.sync = false) : SymbolEffect sy s s
  /-- ACQ (R55). -/
  | flagged (hm : s.block.mode = .unsynced) (hs : sy.sync = true) : SymbolEffect sy s (acquired sy.pol s)
  /-- SHIFT below 76 bits (R56). -/
  | appended (hm : s.block.mode = .tracking) (hc : s.block.cnt ≠ 75) :
      SymbolEffect sy s (append (logicalBit sy.pol) s)
  /-- SHIFT and WORD at the 76th bit (R56, R57). -/
  | completed (hm : s.block.mode = .tracking) (hc : s.block.cnt = 75) :
      SymbolEffect sy s (wordCounted (wordStaged (append (logicalBit sy.pol) s)))

/-- Every symbol step is one of the four, and then forgets its values (R19, R86). -/
theorem execSym_effect (sy : Symbol) (s : State) :
    ∃ u, SymbolEffect sy s u ∧ execSym sy s = .next (endStep u) := by
  cases hm : s.block.mode with
  | unsynced =>
    cases hs : sy.sync with
    | false => exact ⟨s, .ignored hm hs, by simp [execSym, hm, hs, execScan]⟩
    | true => exact ⟨_, .flagged hm hs, by simp [execSym, hm, hs, execAcq_eq]⟩
  | tracking =>
    by_cases hc : s.block.cnt = 75
    · exact ⟨_, .completed hm hc, by simp [execSym, hm, execShift_completes _ _ hc]⟩
    · exact ⟨_, .appended hm hc, by simp [execSym, hm, execShift_appends _ _ hc]⟩

/-- The inversion of a symbol step. -/
theorem execSym_eq_next {sy : Symbol} {s t : State} (h : execSym sy s = .next t) :
    ∃ u, SymbolEffect sy s u ∧ t = endStep u := by
  obtain ⟨u, hu, he⟩ := execSym_effect sy s
  rw [he] at h
  cases h
  exact ⟨u, hu, rfl⟩

theorem SymbolEffect.cfg_eq {sy : Symbol} {s u : State} (h : SymbolEffect sy s u) : u.cfg = s.cfg := by
  cases h with
  | ignored => rfl
  | flagged => simp [acquired_frame]
  | appended => simp [append_frame]
  | completed => simp [wordCounted_frame, append_frame]

/-- A symbol that completes no word leaves both counters alone (R18). -/
theorem SymbolEffect.counters_eq {sy : Symbol} {s u : State} (h : SymbolEffect sy s u)
    (hn : ¬ (s.block.mode = .tracking ∧ s.block.cnt = 75)) :
    u.block.valid = s.block.valid ∧ u.block.errors = s.block.errors := by
  cases h with
  | ignored => exact ⟨rfl, rfl⟩
  | flagged => simp [acquired_frame]
  | appended => simp [append_frame]
  | completed hm hc => exact absurd ⟨hm, hc⟩ hn

/-- A symbol that completes a word raises exactly one counter, as long as the count is exact (R18). -/
theorem SymbolEffect.one_counter {sy : Symbol} {s u : State} (h : SymbolEffect sy s u) (hcan : s.CanCount)
    (hm : s.block.mode = .tracking) (hc : s.block.cnt = 75) :
    (u.block.valid = s.block.valid + 1 ∧ u.block.errors = s.block.errors) ∨
      (u.block.valid = s.block.valid ∧ u.block.errors = s.block.errors + 1) := by
  cases h with
  | ignored hm' | flagged hm' => simp [hm] at hm'
  | appended _ hc' => exact absurd hc hc'
  | completed =>
    have hcan' : (wordStaged (append (logicalBit sy.pol) s)).CanCount := by
      simpa [State.CanCount, append_frame] using hcan
    simpa [append_frame] using wordCounted_counts hcan'

/-! ## Mode, buffer and fill count by themselves -/

/-- The part of the block that BitframeSync reads and writes (R14, R15): the block without its counters. -/
structure Framing where
  mode : Mode
  buf : Memory
  cnt : Nat

def Block.framing (b : Block) : Framing := ⟨b.mode, b.buf, b.cnt⟩

@[simp] theorem Block.framing_mode (b : Block) : b.framing.mode = b.mode := rfl
@[simp] theorem Block.framing_buf (b : Block) : b.framing.buf = b.buf := rfl
@[simp] theorem Block.framing_cnt (b : Block) : b.framing.cnt = b.cnt := rfl

/-- R58's table as a function of the framing alone; `k` is the draw a stale cell would be read with (U5). -/
def Framing.afterSymbol (cfg : Config) (k : Nat) (sy : Symbol) (f : Framing) : Framing :=
  match f.mode with
  | .unsynced =>
    if sy.sync then
      if cfg.syncSymbolIsData then ⟨.tracking, [logicalBit sy.pol], 1⟩ else ⟨.tracking, [], 0⟩
    else f
  | .tracking =>
    if f.cnt = 75 then ⟨.unsynced, [], 0⟩
    else ⟨.tracking, memWrite k f.buf f.cnt (logicalBit sy.pol), f.cnt + 1⟩

theorem append_framing (b : Bit) (s : State) :
    (append b s).block.framing =
      ⟨s.block.mode, memWrite s.draws s.block.buf s.block.cnt b, s.block.cnt + 1⟩ := rfl

theorem acquired_framing (pol : Bit) (s : State) :
    (acquired pol s).block.framing =
      if s.cfg.syncSymbolIsData then ⟨.tracking, [logicalBit pol], 1⟩ else ⟨.tracking, [], 0⟩ := by
  unfold acquired
  split <;> rfl

theorem wordCounted_wordStaged_framing (s : State) :
    (wordCounted (wordStaged s)).block.framing = ⟨.unsynced, [], 0⟩ := by
  simp [Block.framing, wordCounted_frame]

/-- What a symbol does to mode, buffer and fill count is a function of these, in which no counter stands (R18). -/
theorem SymbolEffect.framing_eq {sy : Symbol} {s u : State} (h : SymbolEffect sy s u) :
    u.block.framing = s.block.framing.afterSymbol s.cfg s.draws sy := by
  cases h with
  | ignored hm hs => simp [Framing.afterSymbol, hm, hs]
  | flagged hm hs => simp [acquired_framing, Framing.afterSymbol, hm, hs]
  | appended hm hc => simp [append_framing, Framing.afterSymbol, hm, hc]
  | completed hm hc => simp [wordCounted_wordStaged_framing, Framing.afterSymbol, hm, hc]

/-- `Block.Inv` speaks of the framing alone. -/
def Framing.Inv (cfg : Config) (f : Framing) : Prop :=
  f.cnt = f.buf.length ∧ f.cnt ≤ 75 ∧ (f.mode = .unsynced → f.cnt = 0) ∧
    (f.mode = .tracking → cfg.syncSymbolIsData = true → 1 ≤ f.cnt)

theorem Block.inv_iff_framing (cfg : Config) (b : Block) : b.Inv cfg ↔ b.framing.Inv cfg := Iff.rfl

/-- Every row of R58's table keeps R15 and R16. -/
theorem Framing.afterSymbol_inv {cfg : Config} {f : Framing} (k : Nat) (sy : Symbol) (h : f.Inv cfg) :
    (f.afterSymbol cfg k sy).Inv cfg := by
  have ⟨hlen, hmax, _, _⟩ := h
  unfold Framing.afterSymbol
  split
  · split
    · split
      · simp [Framing.Inv]
      · next hdata => simp [Framing.Inv, hdata]
    · exact h
  · split
    · simp [Framing.Inv]
    · next hc =>
      have hwrite : memWrite k f.buf f.cnt (logicalBit sy.pol) = f.buf ++ [logicalBit sy.pol] := by
        rw [hlen, memWrite_length (by omega)]
      simp only [Framing.Inv, hwrite, List.length_append, List.length_singleton]
      exact ⟨by omega, by omega, nofun, fun _ _ => by omega⟩

/-- The block after a reset keeps R15 and R16 under every configuration. -/
theorem Block.initial_inv (cfg : Config) : Block.initial.Inv cfg := by
  simp [Block.Inv, Block.initial]

/-- A buffer as long as a fill count of at most 75 has the form of R28. -/
theorem Block.buf_wf_of_inv {cfg : Config} {b : Block} (h : b.Inv cfg) : b.buf.wf := by
  obtain ⟨hlen, hmax, -, -⟩ := h
  simp only [Memory.wf, wordBits]
  omega

/-! ## What a step does -/

theorem decodeDispatch_unsynced (sy : Symbol) :
    decodeDispatch (dispatchWord .unsynced sy) = if sy.sync then .acq sy.pol else .scan sy.pol := by
  obtain ⟨sync, pol⟩ := sy
  revert sync pol
  decide

theorem decodeDispatch_tracking (sy : Symbol) :
    decodeDispatch (dispatchWord .tracking sy) = .shift sy.sync sy.pol := by
  obtain ⟨sync, pol⟩ := sy
  revert sync pol
  decide

theorem step_nil {s : State} (h : s.inbox = []) : step s = .next s := by
  simp [step, fetch_nil h]

/-- The operation that R48's table selects for a symbol is the one R86 runs. -/
theorem step_symbol {s : State} {sy : Symbol} {rest : List Request} (h : s.inbox = .symbol sy :: rest) :
    step s = execSym sy (s.setInbox rest) := by
  cases hm : s.block.mode with
  | unsynced =>
    cases hs : sy.sync <;>
      simp [step, fetch_cons h, decodeRequest, hm, hs, decodeDispatch_unsynced, exec, execSym]
  | tracking => simp [step, fetch_cons h, decodeRequest, hm, decodeDispatch_tracking, exec, execSym]

theorem step_call {s : State} {c : EnvCall} {rest : List Request} (h : s.inbox = .call c :: rest) :
    step s = andThen (exec (decodeCall c) (s.setInbox rest)) (fun u => .next (endStep u)) := by
  simp [step, fetch_cons h, decodeRequest]

/-- The inversion of a step: a pause, a symbol or a call. -/
theorem step_eq_next {s t : State} (h : step s = .next t) :
    (s.inbox = [] ∧ t = s) ∨
      (∃ sy rest u, s.inbox = .symbol sy :: rest ∧ SymbolEffect sy (s.setInbox rest) u ∧ t = endStep u) ∨
      (∃ c rest u, s.inbox = .call c :: rest ∧ exec (decodeCall c) (s.setInbox rest) = .next u ∧
        t = endStep u) := by
  match hq : s.inbox with
  | [] =>
    rw [step_nil hq] at h
    cases h
    exact .inl ⟨rfl, rfl⟩
  | .symbol sy :: rest =>
    rw [step_symbol hq] at h
    obtain ⟨u, hu, ht⟩ := execSym_eq_next h
    exact .inr (.inl ⟨sy, rest, u, rfl, hu, ht⟩)
  | .call c :: rest =>
    rw [step_call hq] at h
    obtain ⟨u, hu, ht⟩ := andThen_eq_next h
    cases ht
    exact .inr (.inr ⟨c, rest, u, rfl, hu, rfl⟩)

/-! ## What operations leave alone -/

/-- A call puts the block back to its reset value (R104) or leaves it as it is (R90, R63, R71, R78, R88). -/
theorem exec_decodeCall_block {c : EnvCall} {s t : State} (h : exec (decodeCall c) s = .next t) :
    t.block = s.block ∨ t.block = Block.initial := by
  cases c with
  | reset =>
    cases h
    exact .inr rfl
  | ratio | intlv | penc | fpack | encode =>
    cases h
    exact .inl rfl

/-- R22, R39: the parameters stand through every operation. -/
theorem exec_cfg {i : Instr} {s t : State} (h : exec i s = .next t) : t.cfg = s.cfg := by
  cases i with
  | sym sy =>
    obtain ⟨u, hu, rfl⟩ := execSym_eq_next h
    exact hu.cfg_eq
  | acq pol =>
    cases (execAcq_eq pol s).symm.trans h
    simp [acquired_frame]
  | shift sync pol =>
    by_cases hc : s.block.cnt = 75
    · cases (execShift_completes sync pol hc).symm.trans h
      simp [wordCounted_frame, append_frame]
    · cases (execShift_appends sync pol hc).symm.trans h
      simp [append_frame]
  | word =>
    cases (execWord_eq s).symm.trans h
    simp [wordCounted_frame]
  | decode =>
    cases (execDecode_eq s).symm.trans h
    simp [wordCounted_frame]
  | scan | deint | split | synd | pcorr | xtrId | xtrG | xtrCmd | xtrCrc | crcgen | crcchk | accept | reject
  | reset | ratio | intlv | penc | fpack | encode =>
    cases h
    rfl

theorem step_cfg {s t : State} (h : step s = .next t) : t.cfg = s.cfg := by
  obtain ⟨-, rfl⟩ | ⟨sy, rest, u, -, hu, rfl⟩ | ⟨c, rest, u, -, hu, rfl⟩ := step_eq_next h
  · rfl
  · exact hu.cfg_eq
  · simpa [endStep_eq] using exec_cfg hu

/-- R15, R16: every step keeps what holds of the block between steps. -/
theorem step_block_inv {s t : State} (hi : s.block.Inv s.cfg) (h : step s = .next t) :
    t.block.Inv s.cfg := by
  obtain ⟨-, rfl⟩ | ⟨sy, rest, u, -, hu, rfl⟩ | ⟨c, rest, u, -, hu, rfl⟩ := step_eq_next h
  · exact hi
  · have hf : u.block.framing = s.block.framing.afterSymbol s.cfg s.draws sy := hu.framing_eq
    exact (Block.inv_iff_framing _ u.block).mpr (hf ▸ Framing.afterSymbol_inv s.draws sy hi)
  · have hb : u.block.Inv s.cfg := by
      obtain hb | hb := exec_decodeCall_block hu
      · rw [hb]
        exact hi
      · rw [hb]
        exact Block.initial_inv s.cfg
    exact hb

/-- R19: no value of a step stands after it. -/
theorem step_wires_idle {s t : State} (hw : s.wires = Transients.idle) (h : step s = .next t) :
    t.wires = Transients.idle := by
  obtain ⟨-, rfl⟩ | ⟨_, _, u, -, -, rfl⟩ | ⟨_, _, u, -, -, rfl⟩ := step_eq_next h
  · exact hw
  · rfl
  · rfl

end Sys2Proof.Machine
end

section
/-! The statements of 10_state.md: what the block holds, and what every step keeps. -/

namespace Sys2Proof.Machine

/-- Settles O55: the block by the rows of R58's table and by the calls, the wires by the end of the step. -/
theorem stepKeepsInvariant : Obligations.StepKeepsInvariant := by
  unfold Obligations.StepKeepsInvariant
  rintro s t ⟨hblock, hwires⟩ h
  have hb : t.block.Inv t.cfg := step_cfg h ▸ step_block_inv hblock h
  exact ⟨⟨hb, step_wires_idle hwires h⟩, Block.buf_wf_of_inv hb⟩

/-- Settles O4, operation by operation; a step is a pause, a symbol or a call. -/
theorem parametersNeverChange : Obligations.ParametersNeverChange := by
  unfold Obligations.ParametersNeverChange
  exact ⟨fun _ _ _ => exec_cfg, fun _ _ => step_cfg⟩

/-- Settles O43 with the free values the model draws: `counterBeyond` cut to the width, and `ratioBeyond`. -/
theorem countingBeyondWidthStillRuns : Obligations.CountingBeyondWidthStillRuns := by
  unfold Obligations.CountingBeyondWidthStillRuns
  refine fun s w hw => ⟨fun hn => ⟨?_, ?_⟩, fun htotal => ?_⟩
  · obtain ⟨v, hv, he⟩ := countValid_beyond hw hn
    refine ⟨v, hv, ?_⟩
    simp only [exec, execAccept, he]
    rfl
  · obtain ⟨v, hv, he⟩ := countError_beyond hw hn
    refine ⟨v, hv, ?_⟩
    simp only [exec, execReject, he]
    rfl
  · have hx : countsExactly s.cfg (s.block.valid + s.block.errors) = false := by
      simpa [countsExactly_finite hw] using htotal
    exact ⟨_, execRatio_beyond hx⟩

/-- Settles O56: of the four effects of a symbol only the completed word counts, and unbounded counters count
exactly. -/
theorem oneCountPerCompletedWord : Obligations.OneCountPerCompletedWord := by
  unfold Obligations.OneCountPerCompletedWord
  intro sy s t hw h
  obtain ⟨u, hu, rfl⟩ := execSym_eq_next h
  exact ⟨fun ⟨hm, hc⟩ => hu.one_counter (countsExactly_unbounded hw _) hm hc, hu.counters_eq⟩

/-- Settles O58: both runs leave the same function of the same framing. -/
theorem countersNeverDecide : Obligations.CountersNeverDecide := by
  unfold Obligations.CountersNeverDecide
  intro sy s t t' v e h h'
  obtain ⟨u, hu, rfl⟩ := execSym_eq_next h
  obtain ⟨u', hu', rfl⟩ := execSym_eq_next h'
  have hsame : u'.block.framing = u.block.framing := hu'.framing_eq.trans hu.framing_eq.symm
  exact ⟨congrArg Framing.mode hsame, congrArg Framing.buf hsame, congrArg Framing.cnt hsame⟩

/-- Settles O1: the block of the reset state is R24's. -/
theorem resetLeavesInitialBlock : Obligations.ResetLeavesInitialBlock := by
  unfold Obligations.ResetLeavesInitialBlock
  rfl

/-- Settles O8: there is nothing to fetch. -/
theorem pauseChangesNothing : Obligations.PauseChangesNothing := by
  unfold Obligations.PauseChangesNothing
  exact fun _ => step_nil

/-- Settles O54: the empty block keeps the invariants under every configuration. -/
theorem resetHasInvariant : Obligations.ResetHasInvariant := by
  unfold Obligations.ResetHasInvariant
  exact ⟨⟨Block.initial_inv _, rfl⟩, reset_buf_wf⟩

end Sys2Proof.Machine
end

section
/-! The operation map of 30_encoding.md read both ways: the words of R42 and R48 as the encoder forms them, the stage
sequence place by place, and the step and the symbol step for a given request and mode. -/

namespace Sys2Proof

/-! ## Symbols and dispatch words -/

/-- A symbol value holds `sync` and `pol` and nothing else (R42). -/
@[simp] theorem symbolOfWord_symbolWord (sy : Symbol) : symbolOfWord (symbolWord sy) = sy := by
  obtain ⟨sync, pol⟩ := sy
  revert sync pol
  decide

theorem encode_sym (sy : Symbol) : encode (.sym sy) = some (.sym (symbolWord sy)) := rfl

/-- SCAN's pattern is the dispatch word of an unflagged symbol in UNSYNCED (R48). -/
theorem encode_scan (pol : Bit) :
    encode (.scan pol) = some (.dispatch (dispatchWord .unsynced ⟨false, pol⟩)) := by
  cases pol <;> rfl

/-- ACQ's pattern is the dispatch word of a flagged symbol in UNSYNCED (R48). -/
theorem encode_acq (pol : Bit) :
    encode (.acq pol) = some (.dispatch (dispatchWord .unsynced ⟨true, pol⟩)) := by
  cases pol <;> rfl

/-- SHIFT's pattern is the dispatch word of any symbol in TRACKING (R48). -/
theorem encode_shift (sync pol : Bit) :
    encode (.shift sync pol) = some (.dispatch (dispatchWord .tracking ⟨sync, pol⟩)) := by
  cases sync <;> cases pol <;> rfl

/-! ## The round trip -/

theorem decode_encode {i : Instr} {c : Code} (h : encode i = some c) : decode c = .ok i := by
  cases i with
  | sym sy =>
    cases (encode_sym sy).symm.trans h
    simp [decode, decodeSym]
  | scan pol =>
    cases (encode_scan pol).symm.trans h
    simp [decode, Machine.decodeDispatch_unsynced]
  | acq pol =>
    cases (encode_acq pol).symm.trans h
    simp [decode, Machine.decodeDispatch_unsynced]
  | shift sync pol =>
    cases (encode_shift sync pol).symm.trans h
    simp [decode, Machine.decodeDispatch_tracking]
  | word | deint | split | synd | pcorr | xtrId | xtrG | xtrCmd | xtrCrc | crcgen | crcchk | accept | reject =>
    cases h
    rfl
  | reset | ratio | intlv | penc | fpack | encode =>
    cases h
    rfl
  | decode => cases h

theorem encode_eq_none_iff (i : Instr) : encode i = none ↔ i = .decode := by
  cases i with
  | decode => exact ⟨fun _ => rfl, fun _ => rfl⟩
  | _ => exact ⟨nofun, nofun⟩

/-! ## The stage sequence -/

/-- A stage word `0x` selects nothing at any place (R48). -/
theorem decodeStage_notFull (place : Nat) (ok : Bit) :
    decodeStage place (stageWord false ok) = .error .noStageRuns := by
  cases ok <;> rfl

/-- At the last place `crc_ok` chooses (R48). -/
theorem decodeStage_last (ok : Bit) :
    decodeStage 12 (stageWord true ok) = .ok (if ok then .accept else .reject) := by
  cases ok <;> rfl

namespace Machine

/-- What happens at a place of the stage sequence once the word is whole: the operation that the decoder gives for the
place with the `crc_ok` of the moment. -/
def runStage (place : Nat) (t : State) : Outcome :=
  match decodeStage place (stageWord true t.wires.crcOk) with
  | .ok i => exec i t
  | .error _ => .next t

/-- A place whose operation does not depend on `crc_ok` runs that operation. -/
theorem runStage_eq_exec {place : Nat} (i : Instr)
    (h : ∀ ok, decodeStage place (stageWord true ok) = .ok i) : runStage place = exec i := by
  funext t
  simp only [runStage, h]

theorem runStage_last : runStage 12 = acceptOrReject := by
  funext t
  simp only [runStage, decodeStage_last, acceptOrReject]
  split <;> rfl

/-- R85's sequence of DECODE is places 2 to 12 of R48's stage table. -/
theorem map_runStage_places :
    (List.range' 2 11).map runStage =
      [execDeint, execSplit, execSynd, execPcorr, execXtrId, execXtrG, execXtrCmd, execXtrCrc,
        execCrcgen, execCrcchk, acceptOrReject] := by
  simp only [List.range', List.map_cons, List.map_nil, Nat.reduceAdd, runStage_last,
    runStage_eq_exec (place := 2) .deint (by decide), runStage_eq_exec (place := 3) .split (by decide),
    runStage_eq_exec (place := 4) .synd (by decide), runStage_eq_exec (place := 5) .pcorr (by decide),
    runStage_eq_exec (place := 6) .xtrId (by decide), runStage_eq_exec (place := 7) .xtrG (by decide),
    runStage_eq_exec (place := 8) .xtrCmd (by decide), runStage_eq_exec (place := 9) .xtrCrc (by decide),
    runStage_eq_exec (place := 10) .crcgen (by decide), runStage_eq_exec (place := 11) .crcchk (by decide)]
  rfl

/-! ## A step and a symbol step, the request and the mode given -/

/-- A step with a request at the port runs what it selects and ends (R37, R48). -/
theorem step_cons {s : State} {r : Request} {rest : List Request} (h : s.inbox = r :: rest) :
    step s = andThen (exec (decodeRequest s.block.mode r) (s.setInbox rest)) (fun u => .next (endStep u)) := by
  simp [step, fetch_cons h]

theorem execSym_unflagged {s : State} (h : s.block.mode = .unsynced) (pol : Bit) :
    execSym ⟨false, pol⟩ s = .next (endStep s) := by
  simp [execSym, h, execScan]

theorem execSym_flagged {s : State} (h : s.block.mode = .unsynced) (pol : Bit) :
    execSym ⟨true, pol⟩ s = .next (endStep (acquired pol s)) := by
  simp [execSym, h, execAcq_eq]

theorem execSym_tracking {s : State} (h : s.block.mode = .tracking) (sync pol : Bit) :
    execSym ⟨sync, pol⟩ s = andThen (execShift sync pol s) (fun t => .next (endStep t)) := by
  simp [execSym, h]

/-- SHIFT does not look at the flag (R56, D2). -/
theorem execShift_sync (f g pol : Bit) (s : State) : execShift f pol s = execShift g pol s := rfl

/-- Where the flagged symbol is no data its bit goes nowhere (R55, D1). -/
theorem acquired_withoutData {s : State} (h : s.cfg.syncSymbolIsData = false) (pol : Bit) :
    acquired pol s = clearBuffer (setMode .tracking s) := by
  simp [acquired, h]

end Machine

end Sys2Proof
end

section
/-! The statements of 30_encoding.md: codes and operations, what a step selects, and the inputs that R49 calls ignored. -/

namespace Sys2Proof.Machine

/-- Settles O6: the encoder forms the words of R42 and R48, and only DECODE has none. -/
theorem decodeEncodeAgree : Obligations.DecodeEncodeAgree := by
  unfold Obligations.DecodeEncodeAgree
  exact fun i _ => ⟨fun _ => decode_encode, encode_eq_none_iff i⟩

/-- Refutes O35: word A of T3 with an error in `p[36]` has `s[36]` alone set and is accepted (T6); with `p[37]` in error
too, `s[36]` and `s[37]` make PCORR flip the good bit `d[36]`, and the word is rejected (T5m, C1). -/
theorem not_lastParityBitNeverMatters : ¬ Obligations.LastParityBitNeverMatters := by
  unfold Obligations.LastParityBitNeverMatters
  intro h
  have haccepted : (decode76 Config.default 0x0515AA5A055432CA908#76).crcOk = true := by decide +kernel
  have hrejected : (decode76 Config.default (0x0515AA5A055432CA908#76 ^^^ errorsAt 76 [75])).crcOk = false := by
    decide +kernel
  have hsame := h 0x0515AA5A055432CA908#76
  rw [haccepted, hrejected] at hsame
  cases hsame

/-- Settles O46: DECODE's sequence is the stage table's, place by place. -/
theorem decodeRunsStageSequence : Obligations.DecodeRunsStageSequence := by
  unfold Obligations.DecodeRunsStageSequence
  intro s
  exact congrArg (runAll · s) map_runStage_places.symm

/-- Settles O5: the words that the encoder forms by the round trip, dispatch words by the mode and symbol they are made
of, the rest by evaluation. -/
theorem wordsOfTheTablesDecode : Obligations.WordsOfTheTablesDecode := by
  unfold Obligations.WordsOfTheTablesDecode
  exact ⟨decode_encode (encode_sym ⟨true, false⟩),
    decodeDispatch_unsynced ⟨false, false⟩, decodeDispatch_unsynced ⟨false, true⟩,
    decodeDispatch_unsynced ⟨true, false⟩, decodeDispatch_unsynced ⟨true, true⟩,
    decodeDispatch_tracking ⟨false, false⟩, decodeDispatch_tracking ⟨false, true⟩,
    decodeDispatch_tracking ⟨true, false⟩, decodeDispatch_tracking ⟨true, true⟩,
    by decide, decodeStage_last true, decodeStage_last false, decodeStage_notFull 2 true, by decide⟩

/-- Settles O9: the request at the head of the inbox is the one taken. -/
theorem stepRunsSelectedOperation : Obligations.StepRunsSelectedOperation := by
  unfold Obligations.StepRunsSelectedOperation
  intro s t r rest hinbox hexec
  have hrun : exec (decodeRequest s.block.mode r) (s.setInbox rest) = .next t := hexec
  rw [step_cons hinbox, hrun]
  rfl

/-- Settles O17: SCAN changes nothing, SHIFT does not read the flag, ACQ without data does not read the polarity. -/
theorem ignoredInputsHaveNoEffect : Obligations.IgnoredInputsHaveNoEffect := by
  unfold Obligations.IgnoredInputsHaveNoEffect
  simp only [exec]
  refine ⟨fun s p q hm => ?_, fun s f g p hm => ?_, fun s p q hm hdata => ?_⟩
  · rw [execSym_unflagged hm, execSym_unflagged hm]
  · rw [execSym_tracking hm, execSym_tracking hm, execShift_sync f g]
  · rw [execSym_flagged hm, execSym_flagged hm, acquired_withoutData hdata, acquired_withoutData hdata]

end Sys2Proof.Machine
end

section
/-! BitframeSync of 40_bitframe_sync.md: the row of R58's table that a symbol takes, each with its whole next state, and
runs over a stream of symbols. -/

namespace Sys2Proof.Machine

/-! ## The parts of a row -/

/-- A state whose values are already forgotten loses nothing at the end of a step (R19). -/
theorem endStep_of_idle {s : State} (h : s.wires = Transients.idle) : endStep s = s := by
  rw [endStep_eq, ← h]
  rfl

/-- `s` with one more bit in its buffer (R29, R56). -/
def bitAppended (b : Bit) (s : State) : State :=
  { s with block := { s.block with buf := s.block.buf ++ [b], cnt := s.block.cnt + 1 } }

/-- Appending a symbol's logical bit, its complement, to a buffer with room for it (R29, R32). -/
theorem append_logicalBit {s : State} (hlen : s.block.cnt = s.block.buf.length) (hc : s.block.cnt ≤ 75) (pol : Bit) :
    append (logicalBit pol) s = bitAppended (!pol) s :=
  append_eq hlen (by omega)

/-- ACQ as one write of the block (R55, D1). -/
theorem acquired_eq (pol : Bit) (s : State) :
    acquired pol s = s.setBlock { s.block with
      mode := .tracking
      buf := if s.cfg.syncSymbolIsData then [!pol] else []
      cnt := if s.cfg.syncSymbolIsData then 1 else 0 } := by
  cases h : s.cfg.syncSymbolIsData with
  | false =>
    rw [acquired_withoutData h]
    rfl
  | true =>
    rw [acquired, if_pos h, append_logicalBit rfl (Nat.zero_le 75)]
    rfl

/-- A whole buffer reads as the word of its bits in order: no cell of it is stale (R30, U5). -/
theorem memRead_eq_wordOfBits {k : Nat} {m : Memory} (h : m.length = 76) : memRead k m 0 76 = wordOfBits m :=
  bitsOfFn_congr fun i hi => by
    have hlt : i < m.length := by omega
    simp [memCell_of_lt, hlt]

/-- The state in which DECODE starts on a whole buffer (R57). -/
def wordTaken (s : State) : State :=
  { s with
    block := { s.block with mode := .unsynced, buf := [], cnt := 0 }
    wires := { s.wires with word := wordOfBits s.block.buf } }

theorem setMode_clearBuffer_readWord {s : State} (h : s.block.buf.length = 76) :
    setMode .unsynced (clearBuffer (readWord s)) = wordTaken s := by
  rw [readWord_eq h, memRead_eq_wordOfBits h]
  rfl

theorem execWord_eq_execDecode {s : State} (h : s.block.buf.length = 76) :
    execWord s = execDecode (wordTaken s) := by
  rw [execWord, setMode_clearBuffer_readWord h]

theorem wordStaged_eq {s : State} (h : s.block.buf.length = 76) :
    wordStaged s = (wordTaken s).setWires (stagedWires s.cfg (wordTaken s).wires) := by
  rw [wordStaged, setMode_clearBuffer_readWord h]
  rfl

/-- The stages read `W` and leave it (R85). -/
theorem wordStaged_word {s : State} (h : s.block.buf.length = 76) :
    (wordStaged s).wires.word = wordOfBits s.block.buf := by
  rw [wordStaged_eq h]
  rfl

/-- `s` after the word with the given bits: counted, its event emitted, the block waiting (R57, R82, R83). -/
def wordEnded (bits : List Bit) (s : State) : State :=
  let d := decode76 s.cfg (wordOfBits bits)
  { s with block := s.block.afterWord d.crcOk, outbox := s.outbox ++ [s.block.wordEvent d] }

/-- The verdict as one write of the counters and the events, while the count is exact (R82, R83). -/
theorem wordCounted_eq {s : State} (h : s.CanCount) :
    wordCounted s = { s with
      block := { s.block with
        valid := if s.wires.crcOk then s.block.valid + 1 else s.block.valid
        errors := if s.wires.crcOk then s.block.errors else s.block.errors + 1 }
      outbox := s.outbox ++
        [if s.wires.crcOk then .osw ⟨s.wires.id, s.wires.g, s.wires.cmd, s.wires.crc⟩
          else .crcfail (s.block.errors + 1) s.block.valid] } := by
  unfold wordCounted
  split
  · rw [countValid_eq h]
    rfl
  · rw [countError_eq h]
    rfl

/-- While the count is exact, a whole buffer ends as R82 and R83 say by the verdict of Decode76. -/
theorem endStep_wordCounted_wordStaged {s : State} (hbuf : s.block.buf.length = 76) (hcan : s.CanCount) :
    endStep (wordCounted (wordStaged s)) = endStep (wordEnded s.block.buf s) := by
  have hcan' : (wordStaged s).CanCount := hcan
  rw [wordCounted_eq hcan', wordStaged_eq hbuf]
  rfl

/-! ## The rows, each with its whole next state -/

theorem execSym_ignores {sy : Symbol} {s : State} (hm : s.block.mode = .unsynced) (hs : sy.sync = false) :
    execSym sy s = .next (endStep s) := by
  obtain ⟨sync, pol⟩ := sy
  cases hs
  exact execSym_unflagged hm pol

theorem execSym_acquires {sy : Symbol} {s : State} (hm : s.block.mode = .unsynced) (hs : sy.sync = true) :
    execSym sy s = .next (endStep (acquired sy.pol s)) := by
  obtain ⟨sync, pol⟩ := sy
  cases hs
  exact execSym_flagged hm pol

theorem execSym_appends {sy : Symbol} {s : State} (hm : s.block.mode = .tracking)
    (hlen : s.block.cnt = s.block.buf.length) (hc : s.block.cnt ≤ 74) :
    execSym sy s = .next (endStep (bitAppended (!sy.pol) s)) := by
  rw [execSym_tracking hm, execShift_appends _ _ (by omega), append_logicalBit hlen (by omega)]
  rfl

theorem execSym_completes {sy : Symbol} {s : State} (hm : s.block.mode = .tracking)
    (hlen : s.block.cnt = s.block.buf.length) (hc : s.block.cnt = 75) :
    execSym sy s = .next (endStep (wordCounted (wordStaged (bitAppended (!sy.pol) s)))) := by
  rw [execSym_tracking hm, execShift_completes _ _ hc, append_logicalBit hlen (by omega)]
  rfl

theorem execSym_endsWord {sy : Symbol} {s : State} (hm : s.block.mode = .tracking)
    (hlen : s.block.cnt = s.block.buf.length) (hc : s.block.cnt = 75) (hcan : s.CanCount) :
    execSym sy s = .next (endStep (wordEnded (s.block.buf ++ [!sy.pol]) s)) := by
  have hfull : (bitAppended (!sy.pol) s).block.buf.length = 76 := by
    simp only [bitAppended, List.length_append, List.length_singleton]
    omega
  rw [execSym_completes hm hlen hc, endStep_wordCounted_wordStaged hfull hcan]
  rfl

/-! ## Runs over a stream -/

/-- A run takes its first step and goes on from there. -/
theorem run_succ {s t : State} (h : step s = .next t) (k : Nat) :
    Host.Core.run Sys2Proof.core (k + 1) s = Host.Core.run Sys2Proof.core k t := by
  have hstep : Sys2Proof.core.step s = .next t := h
  simp only [Host.Core.run, hstep]

/-- The step in which the next symbol of a stream is taken, for a row that leaves no value of the step behind. -/
theorem step_stream {s t : State} {sy : Symbol} {l : List Symbol} {rest : List Request}
    (hinbox : s.inbox = (sy :: l).map Request.symbol ++ rest) (ht : t.wires = Transients.idle)
    (hrow : execSym sy (s.setInbox (l.map Request.symbol ++ rest)) = .next (endStep t)) : step s = .next t := by
  rw [endStep_of_idle ht] at hrow
  exact (step_symbol hinbox).trans hrow

/-- A waiting block passes over symbols without a flag (R54, R60). -/
theorem run_unflagged {rest : List Request} (l : List Symbol) (hflags : ∀ sy ∈ l, sy.sync = false) (s : State)
    (hw : s.wires = Transients.idle) (hm : s.block.mode = .unsynced)
    (hinbox : s.inbox = l.map Request.symbol ++ rest) :
    Host.Core.run Sys2Proof.core l.length s = .next (s.setInbox rest) := by
  induction l generalizing s with
  | nil =>
    cases hinbox
    rfl
  | cons sy l ih =>
    have hflag : sy.sync = false := hflags sy List.mem_cons_self
    have hflags' : ∀ x ∈ l, x.sync = false := fun x hx => hflags x (List.mem_cons_of_mem sy hx)
    have hstep : step s = .next (s.setInbox (l.map Request.symbol ++ rest)) :=
      step_stream hinbox hw (execSym_ignores hm hflag)
    exact (run_succ hstep _).trans (ih hflags' _ hw hm rfl)

/-- A tracking block takes the symbols that are missing, whatever their flags, and ends the word (R56, R57, R59). -/
theorem run_missing {rest : List Request} (l : List Symbol) (s : State) (hw : s.wires = Transients.idle)
    (hcan : s.CanCount) (hm : s.block.mode = .tracking) (hlen : s.block.cnt = s.block.buf.length)
    (hmax : s.block.cnt ≤ 75) (hmissing : s.block.cnt + l.length = 76)
    (hinbox : s.inbox = l.map Request.symbol ++ rest) :
    Host.Core.run Sys2Proof.core l.length s =
      .next ((wordEnded (s.block.buf ++ l.map (fun sy => !sy.pol)) s).setInbox rest) := by
  induction l generalizing s with
  | nil =>
    rw [List.length_nil] at hmissing
    omega
  | cons sy l ih =>
    rw [List.length_cons] at hmissing
    by_cases hc : s.block.cnt = 75
    · obtain rfl : l = [] := List.eq_nil_of_length_eq_zero (by omega)
      have hstep : step s = .next ((wordEnded (s.block.buf ++ [!sy.pol]) s).setInbox rest) :=
        step_stream hinbox hw (execSym_endsWord hm hlen hc hcan)
      exact run_succ hstep 0
    · have hroom : s.block.cnt ≤ 74 := by omega
      have hstep : step s = .next ((bitAppended (!sy.pol) s).setInbox (l.map Request.symbol ++ rest)) :=
        step_stream hinbox hw (execSym_appends hm hlen hroom)
      have hlen' : s.block.cnt + 1 = (s.block.buf ++ [!sy.pol]).length := by
        rw [List.length_append, List.length_singleton, hlen]
      have hmissing' : s.block.cnt + 1 + l.length = 76 := by omega
      have hbits : s.block.buf ++ (sy :: l).map (fun sy => !sy.pol) =
          s.block.buf ++ [!sy.pol] ++ l.map (fun sy => !sy.pol) := List.append_cons ..
      rw [hbits]
      exact (run_succ hstep _).trans (ih _ hw hcan hm hlen' (Nat.succ_le_succ hroom) hmissing' rfl)

end Sys2Proof.Machine
end

section
/-! The statements of 40_bitframe_sync.md. -/

namespace Sys2Proof.Machine

/-- Settles O13: the appended bit is the logical one, and at 76 both sides end the same word. -/
theorem shiftAppendsLogicalBit : Obligations.ShiftAppendsLogicalBit := by
  unfold Obligations.ShiftAppendsLogicalBit
  intro sync pol s hlen
  refine ⟨fun hc => ?_, fun hc => ⟨?_, _, execWord_eq _⟩⟩
  · exact (execShift_appends sync pol (by omega)).trans (congrArg _ (append_logicalBit hlen (by omega) pol))
  · simp only [exec, execShift_completes sync pol hc, append_logicalBit hlen hc.le, execWord_eq]
    rfl

/-- Settles O14: the buffer is taken whole, and the verdict leaves mode, buffer and `W` as DECODE found them. -/
theorem wordTakesBufferAndDecodes : Obligations.WordTakesBufferAndDecodes := by
  unfold Obligations.WordTakesBufferAndDecodes
  intro s _ hbuf
  obtain ⟨hmode, hempty, hcnt, hcfg, hwires, hinbox, hreplies⟩ := wordCounted_frame (wordStaged s)
  have hword : (wordCounted (wordStaged s)).wires.word = wordOfBits s.block.buf := by
    rw [hwires, wordStaged_word hbuf]
  exact ⟨_, execWord_eq s, (execWord_eq_execDecode hbuf).symm.trans (execWord_eq s), hmode, hempty, hcnt, hword,
    hcfg, hinbox, hreplies⟩

/-- Settles O15, row by row; the four rows exclude each other. -/
theorem transitionTable : Obligations.TransitionTable := by
  unfold Obligations.TransitionTable
  rintro sy s ⟨⟨hlen, -, -, -⟩, hw⟩
  obtain ⟨u, -, hu⟩ := execSym_effect sy s
  have answers {t : State} (h : execSym sy s = .next t) : endStep u = t := by
    rw [hu] at h
    exact Host.Outcome.next.inj h
  refine ⟨endStep u, hu, fun hm hs => ?_, fun hm hs => ?_, fun hm hc => ?_, fun hm hc => ?_⟩
  · rw [answers (execSym_ignores hm hs), endStep_of_idle hw]
  · rw [answers (execSym_acquires hm hs), acquired_eq]
    exact endStep_of_idle hw
  · rw [answers (execSym_appends hm hlen hc)]
    exact endStep_of_idle hw
  · rw [answers (execSym_completes hm hlen hc)]
    obtain ⟨hmode, hempty, hcnt, hcfg, -, hinbox, hreplies⟩ :=
      wordCounted_frame (wordStaged (bitAppended (!sy.pol) s))
    exact ⟨hmode, hempty, hcnt, rfl, hcfg, hinbox, hreplies⟩

/-- Settles O51, by induction on the symbols that are missing. -/
theorem missingSymbolsCompleteWord : Obligations.MissingSymbolsCompleteWord := by
  unfold Obligations.MissingSymbolsCompleteWord
  rintro s l rest ⟨⟨hlen, hmax, -, -⟩, hw⟩ hcan hm hmissing hinbox
  exact run_missing l s hw hcan hm hlen hmax hmissing hinbox

/-- Settles O53, by induction on the symbols. -/
theorem everyWordNeedsItsFlag : Obligations.EveryWordNeedsItsFlag := by
  unfold Obligations.EveryWordNeedsItsFlag
  rintro s l rest ⟨-, hw⟩ hm hflags hinbox
  exact run_unflagged l hflags s hw hm hinbox

/-- Settles O12: ACQ's one write, for each value of `SYNC_SYMBOL_IS_DATA`. -/
theorem acqEntersTracking : Obligations.AcqEntersTracking := by
  unfold Obligations.AcqEntersTracking
  intro pol s
  simp only [exec, execAcq_eq, acquired_eq]
  exact ⟨fun hdata => by simp [hdata, State.setBlock_eq], fun hdata => by simp [hdata, State.setBlock_eq]⟩

end Sys2Proof.Machine
end

section
/-! The two reorderings of 41_deinterleave.md as permutations of the places of a word, and what the corrector makes of
channel errors that the reordering has set apart (R65). -/

namespace Sys2Proof

/-! ## The permutation of R61 and D3 -/

/-- The place in `W` of the bit that stands at place `n` of `S`. -/
def DeintMap.wordPlace : DeintMap → Nat → Nat
  | .lane4 => Machine.interleavedIndex
  | .block19 => Machine.sequentialIndex

/-- The place in `S` of the bit that stands at place `j` of `W`. -/
def DeintMap.seqPlace : DeintMap → Nat → Nat
  | .lane4 => Machine.sequentialIndex
  | .block19 => Machine.interleavedIndex

namespace Machine

theorem interleavedIndex_eq {k m : Nat} (hm : m < 19) : interleavedIndex (19 * k + m) = 4 * m + k := by
  simp only [interleavedIndex, lanes, laneBits]
  omega

theorem sequentialIndex_eq {k m : Nat} (hk : k < 4) : sequentialIndex (4 * m + k) = 19 * k + m := by
  simp only [sequentialIndex, lanes, laneBits]
  omega

theorem interleavedIndex_lt {n : Nat} (h : n < 76) : interleavedIndex n < 76 := by
  simp only [interleavedIndex, lanes, laneBits]
  omega

theorem sequentialIndex_lt {j : Nat} (h : j < 76) : sequentialIndex j < 76 := by
  simp only [sequentialIndex, lanes, laneBits]
  omega

theorem interleavedIndex_sequentialIndex {j : Nat} (h : j < 76) : interleavedIndex (sequentialIndex j) = j := by
  have hm : j / 4 < 19 := by omega
  rw [sequentialIndex, interleavedIndex_eq hm]
  exact Nat.div_add_mod j 4

theorem sequentialIndex_interleavedIndex {n : Nat} (h : n < 76) : sequentialIndex (interleavedIndex n) = n := by
  have hk : n / 19 < 4 := by omega
  rw [interleavedIndex, sequentialIndex_eq hk]
  exact Nat.div_add_mod n 19

/-- Two places of `S` fewer than 18 apart come from places of `W` at least four apart (R65). -/
theorem interleavedIndex_apart {n n' : Nat} (hlt : n < n') (hnear : n' < n + 18) :
    interleavedIndex n + 3 < interleavedIndex n' ∨ interleavedIndex n' + 3 < interleavedIndex n := by
  have hlane : n' / 19 = n / 19 ∨ n' / 19 = n / 19 + 1 := by omega
  simp only [interleavedIndex, lanes, laneBits]
  omega

end Machine

theorem DeintMap.wordPlace_lt (map : DeintMap) {n : Nat} (h : n < 76) : map.wordPlace n < 76 := by
  cases map with
  | lane4 => exact Machine.interleavedIndex_lt h
  | block19 => exact Machine.sequentialIndex_lt h

theorem DeintMap.seqPlace_lt (map : DeintMap) {j : Nat} (h : j < 76) : map.seqPlace j < 76 := by
  cases map with
  | lane4 => exact Machine.sequentialIndex_lt h
  | block19 => exact Machine.interleavedIndex_lt h

theorem DeintMap.wordPlace_seqPlace (map : DeintMap) {j : Nat} (h : j < 76) :
    map.wordPlace (map.seqPlace j) = j := by
  cases map with
  | lane4 => exact Machine.interleavedIndex_sequentialIndex h
  | block19 => exact Machine.sequentialIndex_interleavedIndex h

theorem DeintMap.seqPlace_wordPlace (map : DeintMap) {n : Nat} (h : n < 76) :
    map.seqPlace (map.wordPlace n) = n := by
  cases map with
  | lane4 => exact Machine.sequentialIndex_interleavedIndex h
  | block19 => exact Machine.interleavedIndex_sequentialIndex h

namespace Machine

/-! ## DEINT and INTLV by their elements -/

theorem bitAt_deinterleave (map : DeintMap) (w : Bits 76) {n : Nat} (h : n < 76) :
    bitAt (deinterleave map w) n = bitAt w (map.wordPlace n) := by
  cases map with
  | lane4 | block19 => exact bitAt_bitsOfFn _ h

theorem bitAt_interleave (map : DeintMap) (seq : Bits 76) {j : Nat} (h : j < 76) :
    bitAt (interleave map seq) j = bitAt seq (map.seqPlace j) := by
  cases map with
  | lane4 | block19 => exact bitAt_bitsOfFn _ h

theorem deinterleave_interleave (map : DeintMap) (x : Bits 76) : deinterleave map (interleave map x) = x :=
  bits_ext fun n h => by
    rw [bitAt_deinterleave map _ h, bitAt_interleave map _ (map.wordPlace_lt h), map.seqPlace_wordPlace h]

theorem interleave_deinterleave (map : DeintMap) (x : Bits 76) : interleave map (deinterleave map x) = x :=
  bits_ext fun j h => by
    rw [bitAt_interleave map _ h, bitAt_deinterleave map _ (map.seqPlace_lt h), map.wordPlace_seqPlace h]

/-- A channel error moves with the bit it falls on. -/
theorem deinterleave_xor (map : DeintMap) (w e : Bits 76) :
    deinterleave map (w ^^^ e) = deinterleave map w ^^^ deinterleave map e :=
  bits_ext fun n h => by simp only [bitAt_xor, bitAt_deinterleave map _ h]

/-! ## SPLIT, SYND and PENC by their elements -/

@[simp] theorem bitAt_dataBits (seq : Bits 76) (i : Nat) : bitAt (dataBits seq) i = bitAt seq (2 * i) := by
  by_cases h : i < 38
  · exact bitAt_bitsOfFn _ h
  · rw [bitAt_of_le _ (by omega), bitAt_of_le _ (by omega)]

@[simp] theorem bitAt_parityBits (seq : Bits 76) (i : Nat) :
    bitAt (parityBits seq) i = bitAt seq (2 * i + 1) := by
  by_cases h : i < 38
  · exact bitAt_bitsOfFn _ h
  · rw [bitAt_of_le _ (by omega), bitAt_of_le _ (by omega)]

theorem dataBits_xor (x y : Bits 76) : dataBits (x ^^^ y) = dataBits x ^^^ dataBits y :=
  bits_ext fun i _ => by rw [bitAt_xor, bitAt_dataBits, bitAt_dataBits, bitAt_dataBits, bitAt_xor]

theorem parityBits_xor (x y : Bits 76) : parityBits (x ^^^ y) = parityBits x ^^^ parityBits y :=
  bits_ext fun i _ => by rw [bitAt_xor, bitAt_parityBits, bitAt_parityBits, bitAt_parityBits, bitAt_xor]

/-- Every even place of an encoded word holds a data bit (R71). -/
theorem bitAt_addParity_even (cfg : Config) (c : Bits 38) {i : Nat} (h : i < 38) :
    bitAt (addParity cfg c) (2 * i) = bitAt c i := by
  rw [addParity, bitAt_bitsOfFn _ (by omega), if_pos (by omega)]
  congr 1
  omega

/-- Every odd place holds the XOR of the data bit before it with that bit's predecessor (R71). -/
theorem bitAt_addParity_odd (cfg : Config) (c : Bits 38) {i : Nat} (h : i < 38) :
    bitAt (addParity cfg c) (2 * i + 1) = (bitAt c i).xor (previousBit cfg c i) := by
  have hi : (2 * i + 1) / 2 = i := by omega
  rw [addParity, bitAt_bitsOfFn _ (by omega), if_neg (by omega), hi]

theorem dataBits_addParity (cfg : Config) (c : Bits 38) : dataBits (addParity cfg c) = c :=
  bits_ext fun _ h => by rw [bitAt_dataBits, bitAt_addParity_even cfg c h]

/-- An encoded word has no syndrome (R72). -/
theorem syndrome_addParity (cfg : Config) (c : Bits 38) : syndrome cfg c (parityBits (addParity cfg c)) = 0#38 :=
  bits_ext fun i h => by
    rw [bitAt_syndrome h, bitAt_parityBits, bitAt_addParity_odd cfg c h, bitAt_zero]
    cases bitAt c i <;> cases previousBit cfg c i <;> rfl

/-- The predecessor before the first bit is the same for a word with and without errors, so for the errors alone it is
0 (R72). -/
theorem previousBit_xor (cfg : Config) (d ed : Bits 38) (i : Nat) :
    previousBit cfg (d ^^^ ed) i = (previousBit cfg d i).xor (previousBit { cfg with parityInit := false } ed i) := by
  cases i with
  | zero => simp
  | succ k => simp

/-- The syndrome of a received word is that of the sent word with that of the error pattern (R72). -/
theorem syndrome_xor (cfg : Config) (d p ed ep : Bits 38) :
    syndrome cfg (d ^^^ ed) (p ^^^ ep) = syndrome cfg d p ^^^ syndrome { cfg with parityInit := false } ed ep :=
  bits_ext fun i h => by
    simp only [bitAt_xor, bitAt_syndrome h, previousBit_xor]
    simp only [Bool.xor_assoc, Bool.xor_left_comm]

/-! ## Errors that stand apart -/

/-- Any two errors in the sequential layout are at least six places apart, so that no two of them reach one pair of
adjacent syndrome bits. -/
def ErrorsApart (e : Bits 76) : Prop :=
  ∀ n n', n < n' → n' < n + 6 → bitAt e n = true → bitAt e n' = false

/-- Around an error there is no other. -/
theorem ErrorsApart.eq_false {e : Bits 76} (h : ErrorsApart e) {n m : Nat} (hn : bitAt e n = true) (hne : m ≠ n)
    (habove : m < n + 6) (hbelow : n < m + 6) : bitAt e m = false := by
  rcases Nat.lt_or_gt_of_ne hne with hlt | hgt
  · by_contra hm
    have hn' := h m n hlt hbelow (Bool.eq_true_of_not_eq_false hm)
    simp [hn] at hn'
  · exact h n m hgt habove hn

theorem errorsApart_zero : ErrorsApart 0#76 := fun _ n' _ _ _ => bitAt_zero 76 n'

/-- `lane4` sets the errors of four consecutive channel bits apart (R65). -/
theorem errorsApart_deinterleave_burst {e : Bits 76} {j : Nat}
    (hburst : ∀ i, i < 76 → bitAt e i = true → j ≤ i ∧ i ≤ j + 3) : ErrorsApart (deinterleave .lane4 e) := by
  have hplace {n : Nat} (h : n < 76) (hn : bitAt (deinterleave .lane4 e) n = true) :
      j ≤ interleavedIndex n ∧ interleavedIndex n ≤ j + 3 := by
    rw [bitAt_deinterleave _ _ h] at hn
    exact hburst _ (interleavedIndex_lt h) hn
  intro n n' hlt hnear hn
  by_cases h : n' < 76
  · by_contra hn'
    obtain ⟨hlow, hhigh⟩ := hplace (by omega) hn
    obtain ⟨hlow', hhigh'⟩ := hplace h (Bool.eq_true_of_not_eq_false hn')
    have hfar := interleavedIndex_apart hlt (by omega)
    omega
  · exact bitAt_of_le _ (by omega)

section Pattern
variable {cfg : Config} {e : Bits 76}

/-- The syndrome bit of a pair without errors whose predecessor has no data error. -/
theorem bitAt_syndrome_eq_false (hinit : cfg.parityInit = false) {i : Nat} (h : i < 38)
    (hd : bitAt e (2 * i) = false) (hp : bitAt e (2 * i + 1) = false)
    (hprev : ∀ k, k + 1 = i → bitAt e (2 * k) = false) :
    bitAt (syndrome cfg (dataBits e) (parityBits e)) i = false := by
  rw [bitAt_syndrome h, bitAt_dataBits, bitAt_parityBits, hd, hp]
  cases i with
  | zero => simp [hinit]
  | succ k => simp [hprev k rfl]

/-- A lone data error sets its own syndrome bit (R69 a). -/
theorem bitAt_syndrome_of_dataError (hinit : cfg.parityInit = false) (he : ErrorsApart e) {i : Nat} (h : i < 38)
    (hd : bitAt e (2 * i) = true) : bitAt (syndrome cfg (dataBits e) (parityBits e)) i = true := by
  have hp : bitAt e (2 * i + 1) = false := he.eq_false hd (by omega) (by omega) (by omega)
  rw [bitAt_syndrome h, bitAt_dataBits, bitAt_parityBits, hd, hp]
  cases i with
  | zero => simp [hinit]
  | succ k =>
    have hprev : bitAt e (2 * k) = false := he.eq_false hd (by omega) (by omega) (by omega)
    simp [hprev]

/-- A lone data error sets the next syndrome bit too (R69 a). -/
theorem bitAt_syndrome_succ_of_dataError (he : ErrorsApart e) {i : Nat} (h : i < 37)
    (hd : bitAt e (2 * i) = true) : bitAt (syndrome cfg (dataBits e) (parityBits e)) (i + 1) = true := by
  have hd' : bitAt e (2 * (i + 1)) = false := he.eq_false hd (by omega) (by omega) (by omega)
  have hp' : bitAt e (2 * (i + 1) + 1) = false := he.eq_false hd (by omega) (by omega) (by omega)
  rw [bitAt_syndrome (by omega), previousBit_succ, bitAt_dataBits, bitAt_dataBits, bitAt_parityBits, hd, hd', hp']
  rfl

/-- Without an error in `d[i]`, two adjacent syndrome bits would need two errors close together. -/
theorem syndrome_not_adjacent (hinit : cfg.parityInit = false) (he : ErrorsApart e) {i : Nat} (h : i < 37)
    (hd : bitAt e (2 * i) = false) :
    (bitAt (syndrome cfg (dataBits e) (parityBits e)) i &&
      bitAt (syndrome cfg (dataBits e) (parityBits e)) (i + 1)) = false := by
  have below {n : Nat} (hn : bitAt e n = true) (hlow : 2 * i + 2 ≤ n) (hhigh : n ≤ 2 * i + 3) :
      bitAt (syndrome cfg (dataBits e) (parityBits e)) i = false :=
    bitAt_syndrome_eq_false hinit (by omega) hd (he.eq_false hn (by omega) (by omega) (by omega))
      fun k hk => he.eq_false hn (by omega) (by omega) (by omega)
  cases hd' : bitAt e (2 * (i + 1)) with
  | true => rw [below hd' (by omega) (by omega), Bool.false_and]
  | false =>
    cases hp' : bitAt e (2 * (i + 1) + 1) with
    | true => rw [below hp' (by omega) (by omega), Bool.false_and]
    | false =>
      have above : bitAt (syndrome cfg (dataBits e) (parityBits e)) (i + 1) = false :=
        bitAt_syndrome_eq_false hinit (by omega) hd' hp' fun k hk => by
          cases hk
          exact hd
      rw [above, Bool.and_false]

/-- On errors that stand apart the flips are the data errors, under either `PARITY_MODE` (R69, D4). -/
theorem flips_of_errorsApart (mode : ParityMode) (hinit : cfg.parityInit = false) (he : ErrorsApart e) {i : Nat}
    (h : i < 37) : flips mode (syndrome cfg (dataBits e) (parityBits e)) i = bitAt e (2 * i) := by
  cases hd : bitAt e (2 * i) with
  | false => exact flips_eq_false (syndrome_not_adjacent hinit he h hd)
  | true =>
    refine flips_eq_true h (fun k hk => ?_) ?_
    · have clear {m : Nat} (hlow : 2 * i ≤ m + 4) (hhigh : m < 2 * i) : bitAt e m = false :=
        he.eq_false hd (by omega) (by omega) (by omega)
      exact bitAt_syndrome_eq_false hinit (by omega) (clear (by omega) (by omega)) (clear (by omega) (by omega))
        fun l hl => clear (by omega) (by omega)
    · rw [bitAt_syndrome_of_dataError hinit he (by omega) hd, bitAt_syndrome_succ_of_dataError he h hd]
      rfl

end Pattern

/-! ## Decoding a word with such errors -/

theorem slice_congr {c c' : Bits 38} {a n : Nat} (h : ∀ i, i < 37 → bitAt c i = bitAt c' i) (hn : a + n ≤ 37) :
    slice c a n = slice c' a n :=
  bitsOfFn_congr fun i hi => h (a + i) (by omega)

/-- Fields and verdict read `c[0..36]` only (R77). -/
theorem readDataWord_congr (cfg : Config) {c c' : Bits 38} (h : ∀ i, i < 37 → bitAt c i = bitAt c' i) :
    readDataWord cfg c = readDataWord cfg c' := by
  have hid : slice c 0 idW = slice c' 0 idW := slice_congr h (by decide)
  have hg : bitAt c 16 = bitAt c' 16 := h 16 (by decide)
  have hcmd : slice c 17 cmdW = slice c' 17 cmdW := slice_congr h (by decide)
  have hcrc : slice c 27 crcW = slice c' 27 crcW := slice_congr h (by decide)
  have hcovered : slice c 0 crcCover = slice c' 0 crcCover := slice_congr h (by decide)
  simp only [readDataWord, fieldId, fieldG, fieldCmd, fieldCrc, coveredBits, hid, hg, hcmd, hcrc, hcovered]

/-- The corrector brings back every data bit but the last of an encoded word with errors that stand apart. -/
theorem bitAt_correctedBits_of_errorsApart (cfg : Config) (c : Bits 38) {e : Bits 76}
    (he : ErrorsApart (deinterleave cfg.deintMap e)) {i : Nat} (h : i < 37) :
    bitAt (correctedBits cfg (interleave cfg.deintMap (addParity cfg c) ^^^ e)) i = bitAt c i := by
  simp only [correctedBits, deinterleave_xor, deinterleave_interleave, dataBits_xor, parityBits_xor,
    dataBits_addParity, syndrome_xor, syndrome_addParity, BitVec.zero_xor]
  rw [bitAt_correct (by omega), flips_of_errorsApart _ rfl he h, bitAt_xor, bitAt_dataBits, Bool.xor_assoc,
    Bool.xor_self, Bool.xor_false]

/-- Decode76 of an encoded word with errors that stand apart reads the data word that was packed. -/
theorem decode76_of_errorsApart (cfg : Config) (id : BitVec 16) (g : Bit) (cmd : BitVec 10) (u : Option Bit)
    {e : Bits 76} (he : ErrorsApart (deinterleave cfg.deintMap e)) :
    decode76 cfg (encodeWord cfg id g cmd u ^^^ e) = readDataWord cfg (pack cfg id g cmd u) :=
  readDataWord_congr cfg fun _ h => bitAt_correctedBits_of_errorsApart cfg _ he h

theorem deinterleave_zero (map : DeintMap) : deinterleave map 0#76 = 0#76 :=
  bits_ext fun n h => by rw [bitAt_deinterleave map _ h, bitAt_zero, bitAt_zero]

theorem decode76_encodeWord (cfg : Config) (id : BitVec 16) (g : Bit) (cmd : BitVec 10) (u : Option Bit) :
    decode76 cfg (encodeWord cfg id g cmd u) = readDataWord cfg (pack cfg id g cmd u) := by
  have hclean : ErrorsApart (deinterleave cfg.deintMap 0#76) := by
    rw [deinterleave_zero]
    exact errorsApart_zero
  simpa only [BitVec.xor_zero] using decode76_of_errorsApart cfg id g cmd u hclean

end Machine

end Sys2Proof
end

section
/-! The statements of 41_deinterleave.md. -/

namespace Sys2Proof.Machine

/-- Settles O50: `lane4` sets the errors of the burst apart, and the corrector then repairs each by itself. -/
theorem burstsOfFourAreRepaired : Obligations.BurstsOfFourAreRepaired := by
  unfold Obligations.BurstsOfFourAreRepaired
  intro cfg id g cmd u e j hmap hburst
  have hapart : ErrorsApart (deinterleave cfg.deintMap e) := by
    rw [hmap]
    exact errorsApart_deinterleave_burst hburst
  rw [decode76_of_errorsApart cfg id g cmd u hapart, decode76_encodeWord]

/-- Settles O18: the places of `S` that each map's rule names. -/
theorem deintReordersLanes : Obligations.DeintReordersLanes := by
  unfold Obligations.DeintReordersLanes
  refine fun s => ⟨deinterleave s.cfg.deintMap s.wires.word, rfl, fun hmap k m hk hm => ?_, fun hmap k m hk hm => ?_⟩
  · rw [bitAt_deinterleave _ _ (by omega), hmap, DeintMap.wordPlace, interleavedIndex_eq hm]
  · rw [bitAt_deinterleave _ _ (by omega), hmap, DeintMap.wordPlace, sequentialIndex_eq hk]

/-- Settles O19: the places of `W` that each map's rule names. -/
theorem intlvReturnsInterleavedWord : Obligations.IntlvReturnsInterleavedWord := by
  unfold Obligations.IntlvReturnsInterleavedWord
  refine fun seq s => ⟨interleave s.cfg.deintMap seq, rfl, fun hmap k m hk hm => ?_, fun hmap k m hk hm => ?_⟩
  · rw [bitAt_interleave _ _ (by omega), hmap, DeintMap.seqPlace, sequentialIndex_eq hk]
  · rw [bitAt_interleave _ _ (by omega), hmap, DeintMap.seqPlace, interleavedIndex_eq hm]

/-- Settles O20: the two place functions of either map are inverse on the 76 places. -/
theorem interleaveRoundTrip : Obligations.InterleaveRoundTrip := by
  unfold Obligations.InterleaveRoundTrip
  exact fun map x => ⟨deinterleave_interleave map x, interleave_deinterleave map x⟩

end Sys2Proof.Machine
end

section
/-! The parity corrector of 42_parity.md on error patterns: which syndrome bits a flip depends on, what it makes of a
run, of an error that stands alone (R69), of errors that interact (R70), and of the last pair. -/

namespace Sys2Proof.Machine

/-! ## Flips and runs of set syndrome bits -/

/-- Where no run of three ends, a flip is two adjacent set bits under either `PARITY_MODE` (R68 b, D4). -/
theorem flips_eq_and (mode : ParityMode) {syn : Bits 38} {i : Nat}
    (hrun : ∀ k, k + 1 = i → (bitAt syn k && bitAt syn (k + 1) && bitAt syn (k + 2)) = false) :
    flips mode syn i = (bitAt syn i && bitAt syn (i + 1)) := by
  cases hpair : bitAt syn i && bitAt syn (i + 1) with
  | false => exact flips_eq_false hpair
  | true =>
    have hi : i < 37 := by
      by_contra hi
      simp [bitAt_of_le syn (i := i + 1) (by omega)] at hpair
    refine flips_eq_true hi (fun k hk => ?_) hpair
    subst hk
    simpa [Bool.and_assoc, hpair] using hrun k rfl

theorem firesSequential_congr {syn syn' : Bits 38} {i : Nat}
    (h : ∀ k, k ≤ i + 1 → bitAt syn k = bitAt syn' k) : firesSequential syn i = firesSequential syn' i := by
  induction i with
  | zero => rw [firesSequential, firesSequential, h 0 (by omega), h 1 (by omega)]
  | succ i ih =>
    have hbefore : firesSequential syn i = firesSequential syn' i := ih fun k hk => h k (by omega)
    rw [firesSequential, firesSequential, hbefore, h (i + 1) (by omega), h (i + 2) (by omega)]

/-- A flip looks no further than the syndrome bit after its own. -/
theorem flips_congr (mode : ParityMode) {syn syn' : Bits 38} {i : Nat}
    (h : ∀ k, k ≤ i + 1 → bitAt syn k = bitAt syn' k) : flips mode syn i = flips mode syn' i := by
  cases mode with
  | twoPass => simp only [flips, h i (by omega), h (i + 1) (by omega)]
  | sequentialRecompute => simp only [flips, firesSequential_congr h]

/-! ## The corrector on a sent word and on errors -/

theorem correct_zero (mode : ParityMode) (d : Bits 38) : correct mode d 0#38 = d :=
  bits_ext fun i h => by
    rw [bitAt_correct h, flips_eq_false (by rw [bitAt_zero, Bool.false_and]), Bool.xor_false]

/-- The flips come from the syndrome alone (R72). -/
theorem correct_xor (mode : ParityMode) (c d syn : Bits 38) :
    correct mode (c ^^^ d) syn = c ^^^ correct mode d syn :=
  bits_ext fun i h => by rw [bitAt_xor, bitAt_correct h, bitAt_correct h, bitAt_xor, Bool.xor_assoc]

theorem bitAt_errorsAt {n i : Nat} (l : List Nat) (h : i < n) : bitAt (errorsAt n l) i = decide (i ∈ l) :=
  (bitAt_bitsOfFn _ h).trans (List.contains_eq_mem i l)

/-- A single channel error is an error that stands apart, wherever the deinterleaver puts it. -/
theorem errorsApart_deinterleave_single (map : DeintMap) (j : Nat) :
    ErrorsApart (deinterleave map (errorsAt 76 [j])) := by
  have hplace {n : Nat} (h : n < 76) (hn : bitAt (deinterleave map (errorsAt 76 [j])) n = true) :
      n = map.seqPlace j := by
    rw [bitAt_deinterleave _ _ h, bitAt_errorsAt _ (map.wordPlace_lt h)] at hn
    rw [← List.mem_singleton.mp (of_decide_eq_true hn), map.seqPlace_wordPlace h]
  intro n n' hlt _ hn
  by_cases h : n' < 76
  · by_contra hn'
    have hsame := hplace (by omega) hn
    have hsame' := hplace h (Bool.eq_true_of_not_eq_false hn')
    omega
  · exact bitAt_of_le _ (by omega)

/-! ## An isolated error (R69) -/

section Isolated
variable {ed ep : Bits 38} {i : Nat}

/-- The two pairs on either side of pair `i` are without errors. -/
def IsolatedAt (ed ep : Bits 38) (i : Nat) : Prop :=
  ∀ j, j ≤ 37 → j ≠ i → i < j + 3 → j < i + 3 → bitAt ed j = false ∧ bitAt ep j = false

/-- An isolated pair sets no other syndrome bits than its own and, by its data bit, the next. -/
theorem IsolatedAt.bitAt_syndrome (h : IsolatedAt ed ep i) {j : Nat} (hj : j ≤ 37) (hlow : i ≤ j + 1)
    (hhigh : j ≤ i + 2) :
    bitAt (syndrome Config.default ed ep) j =
      ((decide (j = i) && (bitAt ed i ^^ bitAt ep i)) ^^ (decide (j = i + 1) && bitAt ed i)) := by
  have hown : (bitAt ed j ^^ bitAt ep j) = (decide (j = i) && (bitAt ed i ^^ bitAt ep i)) := by
    by_cases hji : j = i
    · simp [hji]
    · obtain ⟨hd, hp⟩ := h j hj hji (by omega) (by omega)
      simp [hji, hd, hp]
  have hprevious : previousBit Config.default ed j = (decide (j = i + 1) && bitAt ed i) := by
    cases j with
    | zero => simp [Config.default]
    | succ k =>
      by_cases hki : k = i
      · simp [hki]
      · obtain ⟨hd, -⟩ := h k (by omega) hki (by omega) (by omega)
        simp [hki, hd]
  rw [Machine.bitAt_syndrome (by omega), Bool.xor_left_comm, hown, hprevious, Bool.xor_comm]

/-- Between clear syndrome bits before `i` and after `i + 1` only `i` can flip, and it does when both are set. -/
theorem flips_near (mode : ParityMode) {syn : Bits 38} (hbelow : ∀ k, k + 1 = i → bitAt syn k = false)
    (habove : bitAt syn (i + 2) = false) {j : Nat} (hlow : i ≤ j + 2) (hhigh : j ≤ i + 2) :
    flips mode syn j = (decide (j = i) && (bitAt syn i && bitAt syn (i + 1))) := by
  by_cases hji : j = i
  · subst hji
    rw [flips_eq_and mode fun k hk => by rw [hbelow k hk]; rfl, decide_eq_true rfl, Bool.true_and]
  · have hclear : bitAt syn j = false ∨ bitAt syn (j + 1) = false := by
      have hplace : j + 1 + 1 = i ∨ j + 1 = i ∨ j + 1 = i + 2 ∨ j = i + 2 := by omega
      rcases hplace with h | h | h | h
      · exact .inr (hbelow _ h)
      · exact .inl (hbelow _ h)
      · exact .inr (h ▸ habove)
      · exact .inl (h ▸ habove)
    rw [flips_eq_false (by rcases hclear with h | h <;> simp [h]), decide_eq_false hji, Bool.false_and]

/-- Near an isolated pair only its own data bit can be left wrong: when the parity bit is in error too, and at 37, where
nothing flips (R68 c). -/
theorem IsolatedAt.bitAt_correct (h : IsolatedAt ed ep i) (hi : i ≤ 37) (mode : ParityMode) {j : Nat} (hj : j ≤ 37)
    (hlow : i ≤ j + 2) (hhigh : j ≤ i + 2) :
    bitAt (correct mode ed (syndrome Config.default ed ep)) j =
      (decide (j = i) && (bitAt ed i && (bitAt ep i || decide (i = 37)))) := by
  have hbelow : ∀ k, k + 1 = i → bitAt (syndrome Config.default ed ep) k = false := fun k hk => by
    have hne : k ≠ i := by omega
    have hne' : k ≠ i + 1 := by omega
    simp [h.bitAt_syndrome (j := k) (by omega) (by omega) (by omega), hne, hne']
  have habove : bitAt (syndrome Config.default ed ep) (i + 2) = false := by
    by_cases hlast : i + 2 ≤ 37
    · simp [h.bitAt_syndrome hlast (by omega) (by omega)]
    · exact bitAt_of_le _ (by omega)
  rw [Machine.bitAt_correct (by omega), flips_near mode hbelow habove hlow hhigh]
  by_cases hji : j = i
  · subst hji
    rw [h.bitAt_syndrome hj (by omega) (by omega)]
    by_cases hlast : j = 37
    · simp [hlast, bitAt_of_le]
    · rw [h.bitAt_syndrome (by omega) (by omega) (by omega)]
      cases bitAt ed j <;> cases bitAt ep j <;> simp [hlast]
  · obtain ⟨hd, -⟩ := h j hj hji (by omega) (by omega)
    simp [hji, hd]

end Isolated

/-! ## Errors at given places (R70) -/

/-- The syndrome of errors at given places: an odd number of a data error there, one just before and a parity error
there (R67). -/
theorem syndrome_errorsAt {d p set : List Nat}
    (h : ∀ j, j < 38 → (j ∈ set ↔ (j ∈ d ↔ (j ∈ d.map (· + 1) ↔ j ∈ p)))) :
    syndrome Config.default (errorsAt 38 d) (errorsAt 38 p) = errorsAt 38 set :=
  bits_ext fun j hj => by
    have hprevious : previousBit Config.default (errorsAt 38 d) j = decide (j ∈ d.map (· + 1)) := by
      cases j with
      | zero => simp [Config.default]
      | succ k =>
        have hk : k < 38 := by omega
        simp [bitAt_errorsAt d hk]
    rw [bitAt_syndrome hj, hprevious, bitAt_errorsAt _ hj, bitAt_errorsAt _ hj, bitAt_errorsAt _ hj]
    simp only [h j hj]
    by_cases hd : j ∈ d <;> by_cases hb : j ∈ d.map (· + 1) <;> by_cases hp : j ∈ p <;>
      simp only [hd, hb, hp] <;> rfl

/-- Under `two_pass` the flips are the set places below 37 whose successor is set (R68). -/
theorem correct_errorsAt (d : Bits 38) {set flipped : List Nat}
    (h : ∀ j, j < 38 → (j ∈ flipped ↔ j < 37 ∧ j ∈ set ∧ j + 1 ∈ set)) :
    correct .twoPass d (errorsAt 38 set) = d ^^^ errorsAt 38 flipped :=
  bits_ext fun j hj => by
    rw [bitAt_xor, bitAt_correct hj, bitAt_errorsAt _ hj]
    congr 1
    by_cases hlast : j < 37
    · rw [flips_twoPass hlast, bitAt_errorsAt _ hj, bitAt_errorsAt _ (by omega)]
      simp [h j hj, hlast]
    · simp [flips, h j hj, hlast]

theorem errorsAt_xor_eq {n : Nat} {l l' r : List Nat} (h : ∀ j, j < n → (j ∈ r ↔ ¬ (j ∈ l ↔ j ∈ l'))) :
    errorsAt n l ^^^ errorsAt n l' = errorsAt n r :=
  bits_ext fun j hj => by
    simp only [bitAt_xor, bitAt_errorsAt _ hj, h j hj]
    by_cases hl : j ∈ l <;> by_cases hl' : j ∈ l' <;> simp [hl, hl']

/-- A row of R70's table, by the places its columns name. -/
theorem errorsAt_row {d p set flipped wrong : List Nat}
    (h : ∀ j, j < 38 →
      (j ∈ set ↔ (j ∈ d ↔ (j ∈ d.map (· + 1) ↔ j ∈ p))) ∧
      (j ∈ flipped ↔ j < 37 ∧ j ∈ set ∧ j + 1 ∈ set) ∧
      (j ∈ wrong ↔ ¬ (j ∈ d ↔ j ∈ flipped))) :
    let e := syndrome Config.default (errorsAt 38 d) (errorsAt 38 p)
    let left := correct .twoPass (errorsAt 38 d) e
    e = errorsAt 38 set ∧ left = errorsAt 38 d ^^^ errorsAt 38 flipped ∧ left = errorsAt 38 wrong := by
  intro e left
  simp only [imp_and, forall_and] at h
  obtain ⟨hsetPlaces, hflippedPlaces, hwrongPlaces⟩ := h
  have hset : e = errorsAt 38 set := syndrome_errorsAt hsetPlaces
  have hflipped : left = errorsAt 38 d ^^^ errorsAt 38 flipped :=
    (congrArg _ hset).trans (correct_errorsAt _ hflippedPlaces)
  have hwrong : errorsAt 38 d ^^^ errorsAt 38 flipped = errorsAt 38 wrong :=
    errorsAt_xor_eq hwrongPlaces
  exact ⟨hset, hflipped, hflipped.trans hwrong⟩

/-! ## The last pair (C1, log entry 19) -/

section LastPair

/-- Under `lane4` the channel bits 71 and 75 are those of the last pair and of no other. -/
theorem interleavedIndex_ne_lastPair {n : Nat} (h : n < 74) :
    interleavedIndex n ≠ 71 ∧ interleavedIndex n ≠ 75 := by
  simp only [interleavedIndex, lanes, laneBits]
  omega

variable {cfg : Config} {d d' p p' : Bits 38}

/-- A syndrome bit is made of its own pair and the data bit before. -/
theorem bitAt_syndrome_congr {i : Nat} (h : i < 38) (hd : ∀ k, k ≤ i → bitAt d k = bitAt d' k)
    (hp : bitAt p i = bitAt p' i) : bitAt (syndrome cfg d p) i = bitAt (syndrome cfg d' p') i := by
  have hprevious : previousBit cfg d i = previousBit cfg d' i := by
    cases i with
    | zero => rfl
    | succ k => exact hd k (by omega)
  rw [bitAt_syndrome h, bitAt_syndrome h, hd i le_rfl, hprevious, hp]

/-- With `s[36]` clear, what the last pair received reaches none of the first 37 corrected bits. -/
theorem bitAt_correct_of_syndrome36 (mode : ParityMode) (hd : ∀ k, k < 37 → bitAt d k = bitAt d' k)
    (hp : ∀ k, k < 37 → bitAt p k = bitAt p' k) (hclear : bitAt (syndrome cfg d p) 36 = false) {i : Nat}
    (h : i < 37) :
    bitAt (correct mode d (syndrome cfg d p)) i = bitAt (correct mode d' (syndrome cfg d' p')) i := by
  have hsyn : ∀ k, k < 37 → bitAt (syndrome cfg d p) k = bitAt (syndrome cfg d' p') k := fun k hk =>
    bitAt_syndrome_congr (by omega) (fun l hl => hd l (by omega)) (hp k hk)
  rw [bitAt_correct (by omega), bitAt_correct (by omega), hd i h]
  congr 1
  by_cases hi : i = 36
  · subst hi
    have hclear' := (hsyn 36 (by decide)).symm.trans hclear
    rw [flips_eq_false (by rw [hclear, Bool.false_and]), flips_eq_false (by rw [hclear', Bool.false_and])]
  · exact flips_congr mode fun k hk => hsyn k (by omega)

end LastPair

end Sys2Proof.Machine
end

section
/-! The statements of 42_parity.md. -/

namespace Sys2Proof.Machine

/-- Settles O23: `two_pass` leaves the syndrome wire, and each flip is two adjacent set bits. -/
theorem pcorrFlipsInTwoPasses : Obligations.PcorrFlipsInTwoPasses := by
  unfold Obligations.PcorrFlipsInTwoPasses
  intro s hmode
  refine ⟨correct .twoPass s.wires.d s.wires.syn, ?_, fun i hi => ?_, ?_⟩
  · simp only [exec, execPcorr, pcorrStage, syndromeAfter, hmode, State.setWires_eq]
  · rw [bitAt_correct (by omega), flips_twoPass (by omega)]
  · rw [bitAt_correct (by decide), flips_last, Bool.xor_false]

/-- Settles O25: without a run of three each flip is two adjacent set bits under both modes. -/
theorem parityModesAgreeOnShortRuns : Obligations.ParityModesAgreeOnShortRuns := by
  unfold Obligations.ParityModesAgreeOnShortRuns
  refine fun d syn hshort => bits_ext fun i hi => ?_
  have hflips (mode : ParityMode) : flips mode syn i = (bitAt syn i && bitAt syn (i + 1)) :=
    flips_eq_and mode fun k hk => by
      by_cases hk' : k < 36
      · exact hshort k hk'
      · simp [bitAt_of_le syn (i := k + 2) (by omega)]
  rw [bitAt_correct hi, bitAt_correct hi, hflips, hflips]

/-- Settles O26: the even and the odd places of the word with parity. -/
theorem pencAddsParity : Obligations.PencAddsParity := by
  unfold Obligations.PencAddsParity
  refine fun c s => ⟨addParity s.cfg c, rfl, bitAt_addParity_even _ _ (i := 0) (by decide),
    bitAt_addParity_odd _ _ (i := 0) (by decide), fun i hpos hi => ⟨bitAt_addParity_even _ _ (by omega), ?_⟩⟩
  obtain ⟨k, rfl⟩ : ∃ k, i = k + 1 := ⟨i - 1, by omega⟩
  exact bitAt_addParity_odd _ _ (by omega)

/-- Settles O27: SPLIT undoes PENC, the syndrome is linear in the errors, and the flips read the syndrome alone. -/
theorem correctorLaws : Obligations.CorrectorLaws := by
  unfold Obligations.CorrectorLaws
  intro cfg c d0 p0
  have hsent : d0 = c := dataBits_addParity cfg c
  have hclean : syndrome cfg d0 p0 = 0#38 := by
    rw [hsent]
    exact syndrome_addParity cfg c
  refine ⟨hsent, hclean, ?_, fun ed ep => ⟨?_, ?_⟩⟩
  · rw [hclean, correct_zero, hsent]
  · rw [syndrome_xor, hclean, BitVec.zero_xor]
  · rw [correct_xor, hsent]

/-- Settles O28 by the syndrome bits an isolated pair sets and the one data bit it can leave wrong. -/
theorem isolatedErrorsAreHarmless : Obligations.IsolatedErrorsAreHarmless := by
  unfold Obligations.IsolatedErrorsAreHarmless
  intro mode ed ep i hi hclear
  have hiso : IsolatedAt ed ep i := hclear
  refine ⟨fun hd hp hi' => ⟨fun j hj hlow hhigh => ?_, fun j hj hlow hhigh => ?_⟩,
    fun hd hp hlast => ⟨fun j hlow hj => ?_, fun j hlow hj => ?_⟩,
    fun hd hp => ⟨fun j hj hlow hhigh => ?_, fun j hj hlow hhigh => ?_⟩⟩
  · rw [hiso.bitAt_syndrome hj hlow hhigh, hd, hp]
    by_cases hji : j = i <;> simp [hji]
  · have hne : i ≠ 37 := by omega
    simp [hiso.bitAt_correct hi mode hj hlow hhigh, hp, hne]
  · subst hlast
    have hne : j ≠ 38 := by omega
    simp [hiso.bitAt_syndrome hj (by omega) (by omega), hd, hp, hne]
  · subst hlast
    simp [hiso.bitAt_correct hi mode hj (by omega) (by omega), hd]
  · simp [hiso.bitAt_syndrome hj hlow hhigh, hd, hp]
  · simp [hiso.bitAt_correct hi mode hj hlow hhigh, hd]

/-- Settles O36: under `lane4` the two words have the same first 37 pairs. -/
theorem lastPairHarmlessWithoutSyndrome36 : Obligations.LastPairHarmlessWithoutSyndrome36 := by
  unfold Obligations.LastPairHarmlessWithoutSyndrome36
  intro cfg w w' hmap hsame hclear
  have hseq : ∀ n, n < 74 → bitAt (deinterleave .lane4 w) n = bitAt (deinterleave .lane4 w') n := fun n hn => by
    obtain ⟨hdata, hparity⟩ := interleavedIndex_ne_lastPair hn
    rw [bitAt_deinterleave _ _ (by omega), bitAt_deinterleave _ _ (by omega)]
    exact hsame _ (interleavedIndex_lt (by omega)) hdata hparity
  refine readDataWord_congr cfg fun i hi => ?_
  simp only [correctedBits, hmap]
  refine bitAt_correct_of_syndrome36 cfg.parityMode (fun k hk => ?_) (fun k hk => ?_) hclear hi
  · rw [bitAt_dataBits, bitAt_dataBits, hseq _ (by omega)]
  · rw [bitAt_parityBits, bitAt_parityBits, hseq _ (by omega)]

/-- Settles O49: one error stands apart from any other under both maps. -/
theorem singleChannelErrorIsRepaired : Obligations.SingleChannelErrorIsRepaired := by
  unfold Obligations.SingleChannelErrorIsRepaired
  intro cfg id g cmd u j _
  rw [decode76_of_errorsApart cfg id g cmd u (errorsApart_deinterleave_single cfg.deintMap j), decode76_encodeWord]

/-- Settles O21: the even and the odd places of `S`. -/
theorem splitSeparatesPairs : Obligations.SplitSeparatesPairs := by
  unfold Obligations.SplitSeparatesPairs
  exact fun s => ⟨dataBits s.wires.seq, parityBits s.wires.seq, rfl,
    fun i _ => ⟨bitAt_dataBits _ i, bitAt_parityBits _ i⟩⟩

/-- Settles O22: `PARITY_INIT` at the first index, the data bit before it at every other. -/
theorem syndFormsSyndrome : Obligations.SyndFormsSyndrome := by
  unfold Obligations.SyndFormsSyndrome
  refine fun s => ⟨syndrome s.cfg s.wires.d s.wires.p, rfl, ?_, fun i hpos hi => ?_⟩
  · rw [bitAt_syndrome (by decide), previousBit_zero, Bool.xor_assoc]
  · obtain ⟨k, rfl⟩ : ∃ k, i = k + 1 := ⟨i - 1, by omega⟩
    rw [bitAt_syndrome (by omega), previousBit_succ, Bool.xor_assoc]
    rfl

/-- Settles O29: per row, which of the 38 places its columns name. -/
theorem interactingErrorsTable : Obligations.InteractingErrorsTable := by
  unfold Obligations.InteractingErrorsTable
  intro i hi row
  refine ⟨fun _ => ?_, ?_, fun _ => ?_, fun _ => ?_, fun _ _ => ?_, fun _ => ?_,
    fun _ => ?_, fun _ => ?_, fun _ => ?_⟩
  all_goals
    refine errorsAt_row fun j hj => ?_
    simp only [List.map_cons, List.map_nil, List.mem_cons, List.not_mem_nil, or_false, iff_false, false_iff, not_not,
      iff_self, iff_true, and_true, true_and]
    omega

end Sys2Proof.Machine
end

section
/-! The fields of a data word (43_field_extract.md): the bits of a masked field in either bit order (R47, D6), and what
stands at the places of a packed word (R78). -/

namespace Sys2Proof.Machine

/-! ## A field bit by bit -/

theorem getLsbD_fieldNum_msbFirst {cfg : Config} (horder : cfg.fieldMsbFirst = true) {n t : Nat} (x : Bits n)
    (h : t < n) : (fieldNum cfg x).getLsbD (n - 1 - t) = bitAt x t := by
  rw [fieldNum, if_pos horder, num, getLsbD_eq_bitAt x h]

theorem getLsbD_fieldNum_lsbFirst {cfg : Config} (horder : cfg.fieldMsbFirst = false) {n t : Nat} (x : Bits n)
    (h : t < n) : (fieldNum cfg x).getLsbD t = bitAt x t := by
  have hback : n - 1 - (n - 1 - t) = t := by omega
  have hreversed := getLsbD_eq_bitAt (reverseBits x) (t := n - 1 - t) (by omega)
  rw [bitAt_reverseBits x (by omega), hback] at hreversed
  simpa [fieldNum, horder, numLsb] using hreversed

/-- R47 in either bit order: the field is its index range of `c` with its mask, which has the order of the number. -/
theorem getLsbD_maskedField (cfg : Config) (c : Bits 38) (a : Nat) {n t : Nat} (mask : BitVec n) (h : t < n) :
    (cfg.fieldMsbFirst = true →
      (fieldNum cfg (slice c a n) ^^^ mask).getLsbD (n - 1 - t) = (bitAt c (a + t) ^^ mask.getLsbD (n - 1 - t))) ∧
    (cfg.fieldMsbFirst = false →
      (fieldNum cfg (slice c a n) ^^^ mask).getLsbD t = (bitAt c (a + t) ^^ mask.getLsbD t)) := by
  refine ⟨fun horder => ?_, fun horder => ?_⟩
  · rw [BitVec.getLsbD_xor, getLsbD_fieldNum_msbFirst horder _ h, bitAt_slice c h]
  · rw [BitVec.getLsbD_xor, getLsbD_fieldNum_lsbFirst horder _ h, bitAt_slice c h]

/-! ## A packed word by its places -/

theorem slice_eq_of_bitAt {m n a : Nat} {x : Bits m} {y : Bits n} (h : ∀ i, i < n → bitAt x (a + i) = bitAt y i) :
    slice x a n = y :=
  bits_ext fun i hi => (bitAt_slice x hi).trans (h i hi)

section Packed
variable (cfg : Config) (id : BitVec 16) (g : Bit) (cmd : BitVec 10) (u : Option Bit)

/-- The bits under the checksum stand in front (R78). -/
theorem bitAt_pack_covered {t : Nat} (h : t < 27) :
    bitAt (pack cfg id g cmd u) t = bitAt (packCovered cfg id g cmd) t := by
  rw [pack, bitAt_bitsOfFn _ (by omega), if_pos h]

theorem slice_pack_covered : slice (pack cfg id g cmd u) 0 27 = packCovered cfg id g cmd :=
  slice_eq_of_bitAt fun i hi => by rw [Nat.zero_add, bitAt_pack_covered cfg id g cmd u hi]

theorem slice_pack_id : slice (pack cfg id g cmd u) 0 16 = fieldBits cfg (id ^^^ cfg.lit.idXor) :=
  slice_eq_of_bitAt fun i hi => by
    rw [Nat.zero_add, bitAt_pack_covered _ _ _ _ _ (by omega), packCovered, bitAt_bitsOfFn _ (by omega), if_pos hi]

theorem bitAt_pack_g : bitAt (pack cfg id g cmd u) 16 = (g ^^ cfg.lit.gXor) := by
  rw [bitAt_pack_covered _ _ _ _ _ (by decide), packCovered, bitAt_bitsOfFn _ (by decide), if_neg (by decide),
    if_pos rfl]

theorem slice_pack_cmd : slice (pack cfg id g cmd u) 17 10 = fieldBits cfg (cmd ^^^ cfg.lit.cmdXor) :=
  slice_eq_of_bitAt fun i hi => by
    rw [bitAt_pack_covered _ _ _ _ _ (by omega), packCovered, bitAt_bitsOfFn _ (by omega), if_neg (by omega),
      if_neg (by omega), Nat.add_sub_cancel_left]

/-- The checksum stands behind the bits it covers (R78, D7). -/
theorem slice_pack_crc :
    slice (pack cfg id g cmd u) 27 10 =
      fieldBits cfg (crcgen cfg (packCovered cfg id g cmd) ^^^ cfg.crcFieldXor) :=
  slice_eq_of_bitAt fun i hi => by
    rw [pack, bitAt_bitsOfFn _ (by omega), if_neg (by omega), if_pos (by omega), Nat.add_sub_cancel_left]

theorem bitAt_pack_last : bitAt (pack cfg id g cmd u) 37 = u.getD cfg.encU := by
  rw [pack, bitAt_bitsOfFn _ (by decide), if_neg (by decide), if_neg (by decide)]

end Packed

end Sys2Proof.Machine
end

section
/-! The statements of 43_field_extract.md. -/

namespace Sys2Proof.Machine

/-- Settles O34: the fields and the verdict read `c[0..36]` only, and the corrector flips no bit at 37. -/
theorem dataBit37ReachesNothing : Obligations.DataBit37ReachesNothing := by
  unfold Obligations.DataBit37ReachesNothing
  refine ⟨fun cfg c c' hsame => readDataWord_congr cfg fun i hi => hsame i (by omega), fun mode d syn => ?_⟩
  rw [bitAt_correct (by decide), flips_last, Bool.xor_false]

/-- Settles O37: each part of the packed word is the bits of a masked number, which the same bit order reads back. -/
theorem fpackBuildsDataWord : Obligations.FpackBuildsDataWord := by
  unfold Obligations.FpackBuildsDataWord
  intro id g cmd u s
  refine ⟨pack s.cfg id g cmd u, rfl, ?_, bitAt_pack_g .., ?_, ?_, bitAt_pack_last ..⟩
  · rw [slice_pack_id, fieldNum_fieldBits]
  · rw [slice_pack_cmd, fieldNum_fieldBits]
  · rw [slice_pack_crc, slice_pack_covered, fieldNum_fieldBits]

/-- Settles O30: the field at `c[0..15]` with `ID_XOR`. -/
theorem xtrIdReadsIdentifier : Obligations.XtrIdReadsIdentifier := by
  unfold Obligations.XtrIdReadsIdentifier
  refine fun s => ⟨fieldId s.cfg s.wires.c, rfl, fun hlit => congrArg Literals.idXor hlit, fun t ht => ?_⟩
  have hbits := getLsbD_maskedField s.cfg s.wires.c 0 s.cfg.lit.idXor ht
  rw [Nat.zero_add] at hbits
  exact hbits

/-- Settles O31: with SZ's literals the mask of `g` is 1. -/
theorem xtrGReadsGroupFlag : Obligations.XtrGReadsGroupFlag := by
  unfold Obligations.XtrGReadsGroupFlag
  intro s
  have hmasked : exec .xtrG s =
      .next { s with wires := { s.wires with g := (bitAt s.wires.c 16 ^^ s.cfg.lit.gXor) } } := rfl
  refine ⟨hmasked, fun hlit => ?_⟩
  have hmask : s.cfg.lit.gXor = true := congrArg Literals.gXor hlit
  rw [hmasked, hmask, Bool.xor_true]

/-- Settles O32: the field at `c[17..26]` with `CMD_XOR`. -/
theorem xtrCmdReadsOpcode : Obligations.XtrCmdReadsOpcode := by
  unfold Obligations.XtrCmdReadsOpcode
  exact fun s => ⟨fieldCmd s.cfg s.wires.c, rfl, fun hlit => congrArg Literals.cmdXor hlit,
    fun t ht => getLsbD_maskedField s.cfg s.wires.c 17 s.cfg.lit.cmdXor ht⟩

/-- Settles O33: the field at `c[27..36]` with `CRC_FIELD_XOR`, whose default is all ones. -/
theorem xtrCrcReadsChecksum : Obligations.XtrCrcReadsChecksum := by
  unfold Obligations.XtrCrcReadsChecksum
  intro s
  have hbits {t : Nat} (ht : t < 10) := getLsbD_maskedField s.cfg s.wires.c 27 s.cfg.crcFieldXor ht
  refine ⟨fieldCrc s.cfg s.wires.c, rfl, fun t ht => hbits ht, fun horder hdefault t ht => ?_⟩
  have hones : s.cfg.crcFieldXor.getLsbD (9 - t) = true := by
    have hall : s.cfg.crcFieldXor = BitVec.allOnes 10 := hdefault
    rw [hall, BitVec.getLsbD_allOnes, decide_eq_true_iff]
    omega
  calc (fieldCrc s.cfg s.wires.c).getLsbD (9 - t)
      = (bitAt s.wires.c (27 + t) ^^ s.cfg.crcFieldXor.getLsbD (9 - t)) := (hbits ht).1 horder
    _ = !bitAt s.wires.c (27 + t) := by rw [hones, Bool.xor_true]

end Sys2Proof.Machine
end

section
/-! The checksum of 44_crc.md as a linear code: the registers in closed form (R79, R80), and the verdict on a changed
data word as a function of the change alone (R81, R84). -/

namespace Sys2Proof.Machine

/-! ## The XOR of chosen words -/

/-- The XOR of `T j` over the `j < n` at which `x` is set. -/
def xorWhere (T : Nat → BitVec 10) (x : Nat → Bit) : Nat → BitVec 10
  | 0 => 0#10
  | n + 1 => xorWhere T x n ^^^ if x n then T n else 0#10

theorem xorWhere_congr {T T' : Nat → BitVec 10} (x : Nat → Bit) {n : Nat} (h : ∀ j, j < n → T j = T' j) :
    xorWhere T x n = xorWhere T' x n := by
  induction n with
  | zero => rfl
  | succ n ih => rw [xorWhere, xorWhere, ih fun j hj => h j (by omega), h n (by omega)]

/-- What is chosen twice cancels. -/
theorem xorWhere_xor (T : Nat → BitVec 10) (x y : Nat → Bit) (n : Nat) :
    xorWhere T (fun j => x j ^^ y j) n = xorWhere T x n ^^^ xorWhere T y n := by
  induction n with
  | zero => simp [xorWhere]
  | succ n ih =>
    have hlast : (if x n ^^ y n then T n else 0#10) = (if x n then T n else 0#10) ^^^ if y n then T n else 0#10 := by
      cases x n <;> cases y n <;> simp
    rw [xorWhere, xorWhere, xorWhere, ih, hlast]
    ac_rfl

/-- R80 writes the same XOR as a loop that starts from a seed. -/
theorem foldl_range_eq_xorWhere (T : Nat → BitVec 10) (x : Nat → Bit) (seed : BitVec 10) (n : Nat) :
    (List.range n).foldl (fun v j => if x j then v ^^^ T j else v) seed = seed ^^^ xorWhere T x n := by
  induction n with
  | zero => simp [xorWhere]
  | succ n ih =>
    rw [List.range_succ, List.foldl_append, ih, xorWhere, List.foldl_cons, List.foldl_nil]
    cases x n <;> simp [BitVec.xor_assoc]

/-! ## The registers in closed form -/

/-- `T[j]` of R80: the register `op` after the shift of iteration `j`, whatever the data. -/
def crcTap (lit : Literals) (j : Nat) : BitVec 10 := (crcShift lit)^[j + 1] lit.crcSeedB

theorem crcRun_op (lit : Literals) {n : Nat} (x : Bits n) (j : Nat) :
    (crcRun lit x j).op = (crcShift lit)^[j] lit.crcSeedB := by
  induction j with
  | zero => rfl
  | succ j ih => rw [Function.iterate_succ_apply', ← ih]; rfl

theorem crcRun_acc_succ (lit : Literals) {n : Nat} (x : Bits n) (j : Nat) :
    (crcRun lit x (j + 1)).acc =
      if bitAt x j then (crcRun lit x j).acc ^^^ (crcRun lit x (j + 1)).op else (crcRun lit x j).acc := rfl

/-- `acc` is its seed and the taps of the data bits that are 1 (R80). -/
theorem crcRun_acc (lit : Literals) {n : Nat} (x : Bits n) (j : Nat) :
    (crcRun lit x j).acc = lit.crcSeedA ^^^ xorWhere (crcTap lit) (bitAt x) j := by
  induction j with
  | zero => simp [crcRun, xorWhere]
  | succ j ih =>
    rw [crcRun_acc_succ, crcRun_op, ← crcTap, ih, xorWhere]
    cases bitAt x j <;> simp [BitVec.xor_assoc]

/-- `CRC_ALGO` has one value (D8). -/
theorem crcRegs_eq (cfg : Config) (x : Bits 27) : crcRegs cfg x = crcRun cfg.lit x 27 := rfl

theorem crcgen_eq (cfg : Config) (x : Bits 27) :
    crcgen cfg x = cfg.lit.crcSeedA ^^^ xorWhere (crcTap cfg.lit) (bitAt x) 27 :=
  crcRun_acc cfg.lit x 27

/-- The checksum of changed bits: the taps of the change come in, the seed does not. -/
theorem crcgen_xor (cfg : Config) (x e : Bits 27) :
    crcgen cfg (x ^^^ e) = crcgen cfg x ^^^ xorWhere (crcTap cfg.lit) (bitAt e) 27 := by
  have hbits : bitAt (x ^^^ e) = fun j => bitAt x j ^^ bitAt e j := funext (bitAt_xor x e)
  rw [crcgen_eq, crcgen_eq, hbits, xorWhere_xor, BitVec.xor_assoc]

theorem crcgen_affine (cfg : Config) (x y : Bits 27) :
    crcgen cfg (x ^^^ y) = crcgen cfg x ^^^ crcgen cfg y ^^^ cfg.lit.crcSeedA := by
  rw [crcgen_xor, crcgen_eq cfg y, BitVec.xor_comm cfg.lit.crcSeedA, BitVec.xor_assoc, BitVec.xor_assoc,
    BitVec.xor_self, BitVec.xor_zero]

/-- The table of R80. -/
def checksumTable : List (BitVec 10) :=
  [0x1B7, 0x2FE, 0x17F, 0x29A, 0x14D, 0x283, 0x364, 0x1B2, 0x0D9, 0x249, 0x301, 0x3A5, 0x3F7, 0x3DE, 0x1EF,
   0x2D2, 0x169, 0x291, 0x36D, 0x393, 0x3EC, 0x1F6, 0x0FB, 0x258, 0x12C, 0x096, 0x04B]

theorem crcTap_sz : ∀ j, j < 27 → crcTap Literals.sz j = checksumTable.getD j 0#10 := by decide +kernel

theorem checksumTable_nodup : checksumTable.Nodup := by decide

theorem zero_notMem_checksumTable : 0#10 ∉ checksumTable := by decide

/-- At the defaults the taps are the entries of the table. -/
theorem crcgen_default_eq_foldl (x : Bits 27) :
    crcgen Config.default x =
      (List.range 27).foldl (fun v j => if bitAt x j then v ^^^ checksumTable.getD j 0#10 else v) 0x393#10 := by
  have htaps : xorWhere (crcTap Config.default.lit) (bitAt x) 27 =
      xorWhere (fun j => checksumTable.getD j 0#10) (bitAt x) 27 := xorWhere_congr _ crcTap_sz
  have hseed : Config.default.lit.crcSeedA = 0x393#10 := rfl
  rw [crcgen_eq, htaps, hseed, foldl_range_eq_xorWhere]

/-! ## The verdict on a changed word -/

theorem slice_xor {m : Nat} (x y : Bits m) (a n : Nat) : slice (x ^^^ y) a n = slice x a n ^^^ slice y a n :=
  bits_ext fun i h => by simp only [bitAt_xor, bitAt_slice _ h]

theorem coveredBits_xor (c e : Bits 38) : coveredBits (c ^^^ e) = coveredBits c ^^^ coveredBits e :=
  slice_xor c e 0 27

theorem fieldNum_xor (cfg : Config) {n : Nat} (x y : Bits n) :
    fieldNum cfg (x ^^^ y) = fieldNum cfg x ^^^ fieldNum cfg y := by
  unfold fieldNum
  split
  · rfl
  · exact bits_ext fun i h => by simp only [numLsb, bitAt_xor, bitAt_reverseBits _ h]

theorem fieldCrc_xor (cfg : Config) (c e : Bits 38) :
    fieldCrc cfg (c ^^^ e) = fieldCrc cfg c ^^^ fieldNum cfg (slice e 27 10) := by
  simp only [fieldCrc, slice_xor, fieldNum_xor, BitVec.xor_assoc]
  rw [BitVec.xor_comm (fieldNum cfg (slice e 27 crcW))]

/-- How far the change `e` of a data word moves the computed checksum from the transmitted one. -/
def checkShift (cfg : Config) (e : Bits 38) : BitVec 10 :=
  xorWhere (crcTap cfg.lit) (bitAt (coveredBits e)) 27 ^^^ fieldNum cfg (slice e 27 10)

theorem checkShift_xor (cfg : Config) (e e' : Bits 38) :
    checkShift cfg (e ^^^ e') = checkShift cfg e ^^^ checkShift cfg e' := by
  have hbits : bitAt (coveredBits (e ^^^ e')) = fun j => bitAt (coveredBits e) j ^^ bitAt (coveredBits e') j := by
    rw [coveredBits_xor]
    exact funext (bitAt_xor _ _)
  simp only [checkShift, hbits, xorWhere_xor, slice_xor, fieldNum_xor]
  ac_rfl

theorem checkShift_zero (cfg : Config) : checkShift cfg 0#38 = 0#10 := by
  simpa using checkShift_xor cfg 0#38 0#38

theorem crcOk_iff (cfg : Config) (c : Bits 38) :
    (readDataWord cfg c).crcOk = true ↔ crcgen cfg (coveredBits c) = fieldCrc cfg c := by
  simp [readDataWord, crcMatches]

/-- A change of an accepted word goes unnoticed exactly when it moves both checksums alike. -/
theorem crcOk_xor_iff {cfg : Config} {c : Bits 38} (h : (readDataWord cfg c).crcOk = true) (e : Bits 38) :
    (readDataWord cfg (c ^^^ e)).crcOk = true ↔ checkShift cfg e = 0#10 := by
  rw [crcOk_iff] at h
  rw [crcOk_iff, coveredBits_xor, crcgen_xor, fieldCrc_xor, h, BitVec.xor_right_inj, checkShift,
    BitVec.xor_eq_zero_iff]

/-! ## The columns of the code -/

/-- What a change of `c[j]` alone does. -/
def checkColumn (cfg : Config) (j : Nat) : BitVec 10 := checkShift cfg (errorsAt 38 [j])

/-- What a change at several places does is the XOR of what each does. -/
theorem checkShift_errorsAt (cfg : Config) {l : List Nat} (hl : l.Nodup) :
    checkShift cfg (errorsAt 38 l) = (l.map (checkColumn cfg)).foldr (· ^^^ ·) 0#10 := by
  induction l with
  | nil => exact checkShift_zero cfg
  | cons i l ih =>
    obtain ⟨hi, hrest⟩ := List.nodup_cons.mp hl
    have hsplit : errorsAt 38 [i] ^^^ errorsAt 38 l = errorsAt 38 (i :: l) := errorsAt_xor_eq fun j _ => by
      by_cases hj : j = i <;> simp [hj, hi]
    rw [← hsplit, checkShift_xor, ih hrest, List.map_cons, List.foldr_cons, checkColumn]

/-- The columns of the 37 bits that the verdict reads. -/
def checkColumns (cfg : Config) : List (BitVec 10) := (List.range 37).map (checkColumn cfg)

/-- The words with one bit set, the most significant first: the columns of the transmitted checksum. -/
def unitColumns : List (BitVec 10) := [0x200, 0x100, 0x080, 0x040, 0x020, 0x010, 0x008, 0x004, 0x002, 0x001]

/-- Of the parameters only the literals and the bit order reach a column. -/
theorem checkColumns_congr {cfg cfg' : Config} (hlit : cfg.lit = cfg'.lit)
    (horder : cfg.fieldMsbFirst = cfg'.fieldMsbFirst) : checkColumns cfg = checkColumns cfg' := by
  have hshift : checkShift cfg = checkShift cfg' := by
    funext e
    simp only [checkShift, fieldNum, hlit, horder]
  exact congrArg (fun shift => (List.range 37).map fun j => shift (errorsAt 38 [j])) hshift

/-- With SZ's literals the columns are the table of R80 and the ten unit words, in the order of the field (D6). -/
theorem checkColumns_sz {cfg : Config} (hlit : cfg.lit = Literals.sz) :
    checkColumns cfg = checksumTable ++ if cfg.fieldMsbFirst then unitColumns else unitColumns.reverse := by
  rw [checkColumns_congr (cfg' := { Config.default with fieldMsbFirst := cfg.fieldMsbFirst }) hlit rfl]
  cases cfg.fieldMsbFirst with
  | true => decide +kernel
  | false => decide +kernel

/-- No two columns of the code are equal and no two XOR to a column: its minimum distance is above 3. -/
structure SeparatesThree (L : List (BitVec 10)) : Prop where
  nodup : L.Nodup
  xor_notMem : ∀ a ∈ L, ∀ b ∈ L, a ^^^ b ∉ L

theorem SeparatesThree.perm {L L' : List (BitVec 10)} (h : SeparatesThree L) (hp : L.Perm L') :
    SeparatesThree L' where
  nodup := hp.nodup_iff.mp h.nodup
  xor_notMem a ha b hb hab := h.xor_notMem a (hp.mem_iff.mpr ha) b (hp.mem_iff.mpr hb) (hp.mem_iff.mpr hab)

/-- The words of a list as the set bits of one number, so that membership is one test. -/
def memberMask (L : List (BitVec 10)) : Nat := L.foldr (fun a m => 2 ^ a.toNat ||| m) 0

theorem testBit_memberMask {L : List (BitVec 10)} {a : BitVec 10} (h : a ∈ L) :
    (memberMask L).testBit a.toNat = true := by
  induction L with
  | nil => cases h
  | cons b L ih =>
    rw [memberMask, List.foldr_cons, Nat.testBit_or, Bool.or_eq_true]
    rcases List.mem_cons.mp h with rfl | htail
    · exact .inl Nat.testBit_two_pow_self
    · exact .inr (ih htail)

/-- R84's enumeration, over numbers: no two columns XOR to a column. -/
theorem testBit_memberMask_xor :
    ∀ a ∈ (checksumTable ++ unitColumns).map BitVec.toNat, ∀ b ∈ (checksumTable ++ unitColumns).map BitVec.toNat,
      (memberMask (checksumTable ++ unitColumns)).testBit (a ^^^ b) = false := by decide +kernel

theorem separatesThree_table_units : SeparatesThree (checksumTable ++ unitColumns) where
  nodup := by decide +kernel
  xor_notMem a ha b hb hab := by
    have hset := testBit_memberMask hab
    rw [BitVec.toNat_xor, testBit_memberMask_xor _ (List.mem_map_of_mem ha) _ (List.mem_map_of_mem hb)] at hset
    cases hset

/-- The minimum distance of R84 (a), in either bit order. -/
theorem separatesThree_checkColumns {cfg : Config} (hlit : cfg.lit = Literals.sz) :
    SeparatesThree (checkColumns cfg) := by
  rw [checkColumns_sz hlit]
  split
  · exact separatesThree_table_units
  · exact separatesThree_table_units.perm ((List.reverse_perm unitColumns).symm.append_left checksumTable)

/-- One, two or three of the words never cancel. -/
theorem SeparatesThree.foldr_xor_ne_zero {L l : List (BitVec 10)} (h : SeparatesThree L) (hl : l.Sublist L)
    (hlow : 1 ≤ l.length) (hhigh : l.length ≤ 3) : l.foldr (· ^^^ ·) 0#10 ≠ 0#10 := by
  intro hzero
  have hnodup : l.Nodup := h.nodup.sublist hl
  have hmem : ∀ a ∈ l, a ∈ L := fun a ha => hl.subset ha
  match l with
  | [] => simp at hlow
  | [a] =>
    have ha : a = 0#10 := by simpa using hzero
    exact h.xor_notMem a (hmem a (by simp)) a (hmem a (by simp)) (by simpa [ha] using hmem a (by simp))
  | [a, b] =>
    have hab : a = b := by simpa [BitVec.xor_eq_zero_iff] using hzero
    simp [hab] at hnodup
  | [a, b, c] =>
    have ha : a = b ^^^ c := by simpa [BitVec.xor_eq_zero_iff] using hzero
    exact h.xor_notMem b (hmem b (by simp)) c (hmem c (by simp)) (ha ▸ hmem a (by simp))
  | _ :: _ :: _ :: _ :: _ =>
    simp only [List.length_cons] at hhigh
    omega

/-! ## Two data words by the places at which they differ -/

/-- The places that `differences` counts. -/
def changedPlaces (c c' : Bits 38) : List Nat := (List.range 37).filter (fun i => bitAt c i != bitAt c' i)

theorem differences_eq_length (c c' : Bits 38) : differences c c' = (changedPlaces c c').length := rfl

theorem changedPlaces_sublist (c c' : Bits 38) : (changedPlaces c c').Sublist (List.range 37) :=
  List.filter_sublist

/-- The verdict on the second word is that on the first with these places changed (R77). -/
theorem readDataWord_changedPlaces (cfg : Config) (c c' : Bits 38) :
    readDataWord cfg c' = readDataWord cfg (c ^^^ errorsAt 38 (changedPlaces c c')) :=
  readDataWord_congr cfg fun i hi => by
    rw [bitAt_xor, bitAt_errorsAt _ (by omega)]
    cases hc : bitAt c i <;> cases hc' : bitAt c' i <;> simp [changedPlaces, hi, hc, hc']

/-- One to three changes move the two checksums apart. -/
theorem checkShift_changedPlaces_ne_zero {cfg : Config} (hlit : cfg.lit = Literals.sz) {c c' : Bits 38}
    (hlow : 1 ≤ differences c c') (hhigh : differences c c' ≤ 3) :
    checkShift cfg (errorsAt 38 (changedPlaces c c')) ≠ 0#10 := by
  have hplaces := changedPlaces_sublist c c'
  rw [differences_eq_length] at hlow hhigh
  rw [checkShift_errorsAt cfg (List.nodup_range.sublist hplaces)]
  exact (separatesThree_checkColumns hlit).foldr_xor_ne_zero (hplaces.map _) (by simpa using hlow)
    (by simpa using hhigh)

/-- The four places of R84 (b) cancel: `T[0] XOR T[2] XOR T[11] XOR T[18] = 0`. -/
theorem checkShift_unnoticed : checkShift Config.default (errorsAt 38 [0, 2, 11, 18]) = 0#10 := by
  decide +kernel

end Sys2Proof.Machine
end

section
/-! The statements of 44_crc.md. -/

namespace Sys2Proof.Machine

/-- Settles O44: a change goes unnoticed only if its columns cancel, which one to three never do and R84 (b)'s four
do. -/
theorem threeChangesAreDetectedFourMayNot : Obligations.ThreeChangesAreDetectedFourMayNot := by
  unfold Obligations.ThreeChangesAreDetectedFourMayNot
  refine ⟨fun cfg c c' hlit hok hlow hhigh => ?_, fun c hok => (crcOk_xor_iff hok _).mpr checkShift_unnoticed⟩
  rw [readDataWord_changedPlaces cfg c c', Bool.eq_false_iff, ne_eq, crcOk_xor_iff hok]
  exact checkShift_changedPlaces_ne_zero hlit hlow hhigh

/-- Settles O38 with the registers of `crcRun` after each iteration. -/
theorem crcgenRunsRegisters : Obligations.CrcgenRunsRegisters := by
  unfold Obligations.CrcgenRunsRegisters
  intro s
  refine ⟨fun j => (crcRun s.cfg.lit (coveredBits s.wires.c) j).acc,
    fun j => (crcRun s.cfg.lit (coveredBits s.wires.c) j).op, rfl, rfl, rfl, fun hlit => ?_, fun j hj => ⟨rfl, ?_⟩⟩
  · exact ⟨congrArg Literals.crcSeedA hlit, congrArg Literals.crcSeedB hlit, congrArg Literals.crcPoly hlit⟩
  · have hbit : bitAt (coveredBits s.wires.c) j = bitAt s.wires.c j := by
      rw [coveredBits, bitAt_slice _ (Nat.lt_succ_of_le hj), Nat.zero_add]
    rw [← hbit]
    exact crcRun_acc_succ ..

/-- Settles O39: the taps are R80's table, and a second word brings in its taps and the seed once more. -/
theorem checksumTableForm : Obligations.ChecksumTableForm := by
  unfold Obligations.ChecksumTableForm
  exact ⟨crcgen_default_eq_foldl, checksumTable_nodup, zero_notMem_checksumTable, crcgen_affine Config.default⟩

/-- Settles O40: `crc_ok` is the equality of the two numbers. -/
theorem crcchkComparesExactly : Obligations.CrcchkComparesExactly := by
  unfold Obligations.CrcchkComparesExactly
  intro s
  have hmatches : crcMatches s.wires.crcCalc s.wires.crc = decide (s.wires.crcCalc = s.wires.crc) :=
    beq_eq_decide ..
  rw [← hmatches]
  rfl

/-- Settles O41: an exact count, then the event. -/
theorem acceptCountsAndEmits : Obligations.AcceptCountsAndEmits := by
  unfold Obligations.AcceptCountsAndEmits
  intro s hcan
  simp only [exec, execAccept, countValid_eq hcan]
  rfl

/-- Settles O42: an exact count, then the event with the counters it left. -/
theorem rejectCountsAndReports : Obligations.RejectCountsAndReports := by
  unfold Obligations.RejectCountsAndReports
  intro s hcan
  simp only [exec, execReject, countError_eq hcan]
  rfl

end Sys2Proof.Machine
end

section
/-! The word pipeline of 45_word_pipeline.md: an encoded word read back (R88, R89), the events of a symbol step (R87), a
word from its flag to its end, and the error ratio (R90). -/

namespace Sys2Proof.Machine

/-! ## A packed word read back -/

section RoundTrip
variable (cfg : Config) (id : BitVec 16) (g : Bit) (cmd : BitVec 10) (u : Option Bit)

theorem coveredBits_pack : coveredBits (pack cfg id g cmd u) = packCovered cfg id g cmd := slice_pack_covered ..

theorem fieldId_pack : fieldId cfg (pack cfg id g cmd u) = id := by
  rw [fieldId, slice_pack_id, fieldNum_fieldBits, BitVec.xor_assoc, BitVec.xor_self, BitVec.xor_zero]

theorem fieldG_pack : fieldG cfg (pack cfg id g cmd u) = g := by
  rw [fieldG, bitAt_pack_g, Bool.xor_assoc, Bool.xor_self, Bool.xor_false]

theorem fieldCmd_pack : fieldCmd cfg (pack cfg id g cmd u) = cmd := by
  rw [fieldCmd, slice_pack_cmd, fieldNum_fieldBits, BitVec.xor_assoc, BitVec.xor_self, BitVec.xor_zero]

theorem fieldCrc_pack : fieldCrc cfg (pack cfg id g cmd u) = crcgen cfg (packCovered cfg id g cmd) := by
  rw [fieldCrc, slice_pack_crc, fieldNum_fieldBits, BitVec.xor_assoc, BitVec.xor_self, BitVec.xor_zero]

/-- Every mask is taken off with the value it was put on with, and the checksum is the one the receiver forms. -/
theorem readDataWord_pack :
    readDataWord cfg (pack cfg id g cmd u) =
      { osw := ⟨id, g, cmd, crcgen cfg (packCovered cfg id g cmd)⟩, crcOk := true } := by
  simp only [readDataWord, fieldId_pack, fieldG_pack, fieldCmd_pack, fieldCrc_pack, coveredBits_pack, crcMatches,
    beq_self_eq_true]

theorem decode76_encodeWord_eq :
    decode76 cfg (encodeWord cfg id g cmd u) =
      { osw := ⟨id, g, cmd, crcgen cfg (packCovered cfg id g cmd)⟩, crcOk := true } := by
  rw [decode76_encodeWord, readDataWord_pack]

/-- DEINT and SPLIT alone bring back the packed word, its unused bit included. -/
theorem dataBits_deinterleave_encodeWord :
    dataBits (deinterleave cfg.deintMap (encodeWord cfg id g cmd u)) = pack cfg id g cmd u := by
  rw [encodeWord, deinterleave_interleave, dataBits_addParity]

end RoundTrip

/-- ENCODE is injective: the fields are read from the packed word, `u` stands at its last place. -/
theorem encodeWord_injective {cfg : Config} {id id' : BitVec 16} {g g' : Bit} {cmd cmd' : BitVec 10} {u u' : Bit}
    (h : encodeWord cfg id g cmd (some u) = encodeWord cfg id' g' cmd' (some u')) :
    id = id' ∧ g = g' ∧ cmd = cmd' ∧ u = u' := by
  have hpack : pack cfg id g cmd (some u) = pack cfg id' g' cmd' (some u') := by
    rw [← dataBits_deinterleave_encodeWord, h, dataBits_deinterleave_encodeWord]
  refine ⟨?_, ?_, ?_, ?_⟩
  · simpa only [fieldId_pack] using congrArg (fieldId cfg) hpack
  · simpa only [fieldG_pack] using congrArg (fieldG cfg) hpack
  · simpa only [fieldCmd_pack] using congrArg (fieldCmd cfg) hpack
  · simpa only [bitAt_pack_last, Option.getD_some] using congrArg (bitAt · 37) hpack

/-! ## Events -/

theorem acquired_outbox (pol : Bit) (s : State) : (acquired pol s).outbox = s.outbox := by
  rw [acquired_eq]
  rfl

@[simp] theorem wordStaged_outbox (s : State) : (wordStaged s).outbox = s.outbox := rfl

/-- Either verdict emits one event behind those already emitted, whatever the counters (R82, R83). -/
theorem wordCounted_outbox (s : State) : ∃ e, (wordCounted s).outbox = s.outbox ++ [e] := by
  unfold wordCounted
  split
  · exact ⟨_, rfl⟩
  · exact ⟨_, rfl⟩

/-- A symbol that completes a word emits one event (R87). -/
theorem SymbolEffect.one_event {sy : Symbol} {s u : State} (h : SymbolEffect sy s u)
    (hm : s.block.mode = .tracking) (hc : s.block.cnt = 75) : ∃ e, u.outbox = s.outbox ++ [e] := by
  cases h with
  | ignored hm' | flagged hm' => simp [hm] at hm'
  | appended _ hc' => exact absurd hc hc'
  | completed => simpa [append_frame] using wordCounted_outbox (wordStaged (append (logicalBit sy.pol) s))

/-- A symbol that completes no word emits nothing (R87). -/
theorem SymbolEffect.no_event {sy : Symbol} {s u : State} (h : SymbolEffect sy s u)
    (hn : ¬ (s.block.mode = .tracking ∧ s.block.cnt = 75)) : u.outbox = s.outbox := by
  cases h with
  | ignored => rfl
  | flagged => exact acquired_outbox ..
  | appended => simp [append_frame]
  | completed hm hc => exact absurd ⟨hm, hc⟩ hn

/-! ## A word from its flag to its end -/

/-- The bits that a flagged symbol brings into the buffer (R55, D1). -/
def flagBits (cfg : Config) (sy : Symbol) : List Bit := if cfg.syncSymbolIsData then [!sy.pol] else []

theorem acquired_eq_flagBits (sy : Symbol) (s : State) :
    acquired sy.pol s = s.setBlock { s.block with
      mode := .tracking, buf := flagBits s.cfg sy, cnt := (flagBits s.cfg sy).length } := by
  rw [acquired_eq, flagBits]
  cases s.cfg.syncSymbolIsData <;> rfl

theorem flagBits_length_le (cfg : Config) (sy : Symbol) : (flagBits cfg sy).length ≤ 75 := by
  unfold flagBits
  split
  · exact Nat.succ_le_succ (Nat.zero_le 74)
  · exact Nat.zero_le 75

/-- A waiting block takes a flagged symbol and those that are missing behind it, and ends the word (R55 to R57). -/
theorem run_flaggedWord {rest : List Request} {sy : Symbol} {l : List Symbol} {s : State}
    (hw : s.wires = Transients.idle) (hcan : s.CanCount) (hm : s.block.mode = .unsynced) (hs : sy.sync = true)
    (hlen : (flagBits s.cfg sy).length + l.length = 76)
    (hinbox : s.inbox = (sy :: l).map Request.symbol ++ rest) :
    Host.Core.run Sys2Proof.core (sy :: l).length s =
      .next ((wordEnded (flagBits s.cfg sy ++ l.map (fun x => !x.pol)) s).setInbox rest) := by
  have hacq := acquired_eq_flagBits sy (s.setInbox (l.map Request.symbol ++ rest))
  have hidle : (acquired sy.pol (s.setInbox (l.map Request.symbol ++ rest))).wires = Transients.idle := by
    rw [hacq]
    exact hw
  have hstep : step s = .next (acquired sy.pol (s.setInbox (l.map Request.symbol ++ rest))) :=
    step_stream hinbox hidle (execSym_acquires hm hs)
  rw [List.length_cons, run_succ hstep, hacq]
  exact run_missing l _ hw hcan rfl rfl (flagBits_length_le ..) hlen rfl

/-! ## The stimulus of a word -/

theorem wordBitList_length (w : Bits 76) : (wordBitList w).length = 76 := by
  rw [wordBitList, List.length_map, List.length_range]

/-- The list of a word's bits is that word. -/
theorem wordOfBits_wordBitList (w : Bits 76) : wordOfBits (wordBitList w) = w :=
  bits_ext fun i hi => by
    rw [wordOfBits, bitAt_bitsOfFn _ hi]
    simp [wordBitList, hi]

/-- A symbol made for a logical bit delivers that bit (R32, R52). -/
theorem map_not_pol_symbolOfLogical (f : Bit) (bs : List Bit) :
    (bs.map (symbolOfLogical f)).map (fun x => !x.pol) = bs := by
  have hinverse : (fun x => !x.pol) ∘ symbolOfLogical f = id := funext Bool.not_not
  rw [List.map_map, hinverse, List.map_id]

/-- The stimulus of a word in the form that `SYNC_SYMBOL_IS_DATA` asks for (R52): a flagged symbol, then those that carry
the rest of the word. -/
theorem expand_word_eq_cons (cfg : Config) (w : Bits 76) :
    ∃ sy l, (if cfg.syncSymbolIsData then (StimulusLine.word w).expand else (StimulusLine.wordx w).expand) = sy :: l ∧
      sy.sync = true ∧ flagBits cfg sy ++ l.map (fun x => !x.pol) = wordBitList w := by
  cases hdata : cfg.syncSymbolIsData with
  | false => exact ⟨_, _, rfl, rfl, by simp only [flagBits, hdata, map_not_pol_symbolOfLogical]; rfl⟩
  | true =>
    obtain ⟨b, bs, hbits⟩ := List.exists_cons_of_length_eq_add_one (wordBitList_length w)
    refine ⟨symbolOfLogical true b, bs.map (symbolOfLogical false), ?_, rfl, ?_⟩
    · simp [StimulusLine.expand, hbits, markedSymbols]
    · rw [map_not_pol_symbolOfLogical, hbits]
      simp [flagBits, hdata, symbolOfLogical, logicalBit]

/-- A waiting block with its invariants is the same after an accepted word, but for `valid` (R16, R57, R82). -/
theorem Block.afterWord_accepted {cfg : Config} {b : Block} (h : b.Inv cfg) (hm : b.mode = .unsynced) :
    b.afterWord true = { b with valid := b.valid + 1 } := by
  obtain ⟨hlen, -, hempty, -⟩ := h
  have hcnt : b.cnt = 0 := hempty hm
  have hbuf : b.buf = [] := List.eq_nil_of_length_eq_zero (hlen.symm.trans hcnt)
  simp [Block.afterWord, hm, hcnt, hbuf]

/-! ## The error ratio -/

/-- RATIO while the counters are exact (R90). -/
theorem execRatio_exact {s : State} (h : countsExactly s.cfg (s.block.valid + s.block.errors) = true) :
    execRatio s = .next (s.setReplies (s.replies ++ [.ratio (errorRatio s.block.valid s.block.errors)])) := by
  simp [execRatio, h, reply_eq]

theorem errorRatio_eq_zero {valid errors : Nat} (h : valid + errors = 0) : errorRatio valid errors = 0 :=
  if_pos h

theorem errorRatio_eq_div {valid errors : Nat} (h : valid + errors ≠ 0) :
    errorRatio valid errors = (errors : Rat) / ((valid + errors : Nat) : Rat) :=
  if_neg h

theorem errorRatio_mul {valid errors : Nat} (h : valid + errors ≠ 0) :
    errorRatio valid errors * ((valid : Rat) + (errors : Rat)) = (errors : Rat) := by
  rw [errorRatio_eq_div h, ← Nat.cast_add, div_mul_cancel₀]
  exact_mod_cast h

theorem errorRatio_nonneg (valid errors : Nat) : 0 ≤ errorRatio valid errors := by
  unfold errorRatio
  split
  · exact le_rfl
  · exact div_nonneg (Nat.cast_nonneg _) (Nat.cast_nonneg _)

theorem errorRatio_le_one (valid errors : Nat) : errorRatio valid errors ≤ 1 := by
  unfold errorRatio
  split
  · exact zero_le_one
  · exact div_le_one_of_le₀ (Nat.cast_le.mpr (Nat.le_add_left errors valid)) (Nat.cast_nonneg _)

end Sys2Proof.Machine
end

section
/-! The statements of 45_word_pipeline.md. -/

namespace Sys2Proof.Machine

/-- Settles O48: the stages of DECODE undo those of ENCODE one by one; two words that differ in `u` alone decode to the
same fields. -/
theorem encodeDecodeRoundTrip : Obligations.EncodeDecodeRoundTrip := by
  unfold Obligations.EncodeDecodeRoundTrip
  refine ⟨fun cfg id g cmd u => ?_, fun _ _ _ _ _ _ _ _ _ => encodeWord_injective,
    encodeWord Config.default 1#16 true 2#10 (some false), encodeWord Config.default 1#16 true 2#10 (some true),
    fun h => ?_, ?_⟩
  · rw [decode76_encodeWord_eq, coveredBits_pack]
  · obtain ⟨-, -, -, hu⟩ := encodeWord_injective h
    exact Bool.false_ne_true hu
  · rw [decode76_encodeWord_eq, decode76_encodeWord_eq]

/-- Settles O10: in each mode the dispatch word selects the branch of R86. -/
theorem dispatchedStepIsSymbolStep : Obligations.DispatchedStepIsSymbolStep := by
  unfold Obligations.DispatchedStepIsSymbolStep
  exact fun _ _ _ hinbox => step_symbol hinbox

/-- Settles O16: the row of R58's table for the 76th bit. -/
theorem completingSymbolDecodesWord : Obligations.CompletingSymbolDecodesWord := by
  unfold Obligations.CompletingSymbolDecodesWord
  exact fun _ _ hm hc hbuf hcan => execSym_endsWord hm (hc.trans hbuf.symm) hc hcan

/-- Settles O45: the stages leave the values of Decode76, and the verdict counts and emits by them. -/
theorem decodeAcceptsOrRejects : Obligations.DecodeAcceptsOrRejects := by
  unfold Obligations.DecodeAcceptsOrRejects
  intro s hcan
  obtain ⟨hok, hosw⟩ := stagedWires_decode76 s.cfg s.wires
  refine ⟨stagedWires s.cfg s.wires, ?_, rfl, hosw, hok⟩
  have hcan' : (s.setWires (stagedWires s.cfg s.wires)).CanCount := hcan
  simp only [exec, execDecode_eq, wordCounted_eq hcan']
  rfl

/-- Settles O52: the flagged symbol and those behind it bring in the bits of the encoded word, which Decode76 accepts. -/
theorem encodedWordIsDelivered : Obligations.EncodedWordIsDelivered := by
  unfold Obligations.EncodedWordIsDelivered
  rintro s id g cmd u l rest ⟨hblock, hw⟩ hcan hm hl hinbox
  obtain ⟨sy, tail, hcons, hs, hbits⟩ := expand_word_eq_cons s.cfg (encodeWord s.cfg id g cmd u)
  obtain rfl : l = sy :: tail := hl.trans hcons
  have hlen : (flagBits s.cfg sy).length + tail.length = 76 := by
    rw [← wordBitList_length (encodeWord s.cfg id g cmd u), ← hbits, List.length_append, List.length_map]
  rw [run_flaggedWord hw hcan hm hs hlen hinbox, hbits, coveredBits_pack]
  simp only [wordEnded, wordOfBits_wordBitList, decode76_encodeWord_eq, Block.afterWord_accepted hblock hm]
  rfl

/-- Settles O57: of the four effects of a symbol only the completed word emits. -/
theorem atMostOneEventPerStep : Obligations.AtMostOneEventPerStep := by
  unfold Obligations.AtMostOneEventPerStep
  intro sy s t h
  obtain ⟨u, hu, rfl⟩ := execSym_eq_next h
  exact ⟨fun ⟨hm, hc⟩ => hu.one_event hm hc, hu.no_event⟩

/-- Settles O59 with the ratio of the two counters. -/
theorem ratioIsExact : Obligations.RatioIsExact := by
  unfold Obligations.RatioIsExact
  exact fun s hexact => ⟨errorRatio s.block.valid s.block.errors, execRatio_exact hexact, errorRatio_eq_zero,
    errorRatio_mul, errorRatio_nonneg .., errorRatio_le_one ..⟩

/-- Settles O60: the event carries the counters that RATIO then reads. -/
theorem percentageIsHundredTimesRatio : Obligations.PercentageIsHundredTimesRatio := by
  unfold Obligations.PercentageIsHundredTimesRatio
  intro s t u hw hreject hratio
  have ht : t.cfg.cntW = none := by rw [exec_cfg hreject, hw]
  have hread : exec .ratio t = .next (t.setReplies (t.replies ++ [.ratio (errorRatio t.block.valid t.block.errors)])) :=
    execRatio_exact (countsExactly_unbounded ht _)
  have hreport := rejectCountsAndReports s (countsExactly_unbounded hw _)
  cases hread.symm.trans hratio
  cases hreport.symm.trans hreject
  exact ⟨_, _, rfl, rfl, rfl⟩

/-- Settles O47: the value of ENCODE is defined as R88's composition. -/
theorem encodeReturnsControlWord : Obligations.EncodeReturnsControlWord := by
  unfold Obligations.EncodeReturnsControlWord
  exact fun _ _ _ _ _ => rfl

end Sys2Proof.Machine
end

section
/-! No operation and no step ends anywhere but in a next state (R99), and the condition without an event (R92). -/

namespace Sys2Proof.Machine

/-- SCAN raises FramingError, and R92 gives that condition no effect. -/
theorem execScan_eq (pol : Bit) (s : State) : execScan pol s = .next s :=
  congrArg Host.Outcome.next (raise_framingError s)

/-- SHIFT answers on either side of the 76th bit (R56). -/
theorem execShift_total (sync pol : Bit) (s : State) : ∃ t, execShift sync pol s = .next t := by
  by_cases hc : s.block.cnt = 75
  · exact ⟨_, execShift_completes sync pol hc⟩
  · exact ⟨_, execShift_appends sync pol hc⟩

/-- R99 for the operations: those that run others answer by their equations, each of the rest is one write. -/
theorem exec_total (i : Instr) (s : State) : ∃ t, exec i s = .next t := by
  cases i with
  | sym sy =>
    obtain ⟨u, -, hu⟩ := execSym_effect sy s
    exact ⟨endStep u, hu⟩
  | scan pol => exact ⟨s, execScan_eq pol s⟩
  | acq pol => exact ⟨_, execAcq_eq pol s⟩
  | shift sync pol => exact execShift_total sync pol s
  | word => exact ⟨_, execWord_eq s⟩
  | decode => exact ⟨_, execDecode_eq s⟩
  | deint | split | synd | pcorr | xtrId | xtrG | xtrCmd | xtrCrc | crcgen | crcchk | accept | reject
  | reset | ratio | intlv | penc | fpack | encode => exact ⟨_, rfl⟩

/-- R99 for the step: a pause answers the same state, a request what its operation answers. -/
theorem step_total (s : State) : ∃ t, step s = .next t := by
  cases hq : s.inbox with
  | nil => exact ⟨s, step_nil hq⟩
  | cons r rest =>
    obtain ⟨u, hu⟩ := exec_total (decodeRequest s.block.mode r) (s.setInbox rest)
    exact ⟨_, stepRunsSelectedOperation s u r rest hq hu⟩

end Sys2Proof.Machine
end

section
/-! The statements of 60_exceptions.md. -/

namespace Sys2Proof.Machine

/-- Settles O7, operation by operation; a step is a pause or one operation. -/
theorem nothingAbortsOrStalls : Obligations.NothingAbortsOrStalls := by
  unfold Obligations.NothingAbortsOrStalls
  exact ⟨exec_total, step_total⟩

/-- Settles O11: raising FramingError is all that SCAN does. -/
theorem scanChangesNothing : Obligations.ScanChangesNothing := by
  unfold Obligations.ScanChangesNothing
  exact execScan_eq

end Sys2Proof.Machine
end

section
/-! RATIO on the block a reset leaves: a total of zero is inside every width (U6), and its ratio is 0 (R90, D24). -/

namespace Sys2Proof.Machine

/-- No width is so narrow that the counters of a reset block are outside it. -/
theorem countsExactly_zero (cfg : Config) : countsExactly cfg 0 = true := by
  cases hw : cfg.cntW with
  | none => exact countsExactly_unbounded hw 0
  | some w => simp [countsExactly_finite hw]

/-- Before any word RATIO answers 0 under every configuration (R90, D24). -/
theorem execRatio_of_no_words {s : State} (h : s.block.valid + s.block.errors = 0) :
    execRatio s = .next (s.setReplies (s.replies ++ [.ratio 0])) := by
  have hexact : countsExactly s.cfg (s.block.valid + s.block.errors) = true := by
    rw [h]
    exact countsExactly_zero s.cfg
  rw [execRatio_exact hexact, errorRatio_eq_zero h]

end Sys2Proof.Machine
end

section
/-! The statements of 70_reset_and_hazards.md. -/

namespace Sys2Proof.Machine

/-- Settles O2: RESET is one write of the block, and the block it writes has counted no word. -/
theorem resetWritesAllFiveComponents : Obligations.ResetWritesAllFiveComponents := by
  unfold Obligations.ResetWritesAllFiveComponents
  exact fun s => ⟨s.setBlock Block.initial, rfl, rfl, execRatio_of_no_words rfl⟩

end Sys2Proof.Machine
end

section
/-! What `sequential_recompute` leaves in the syndrome wire (D4 section 2.3, log entry 17). -/

namespace Sys2Proof.Machine

variable (syn : Bits 38)

/-- No repair stands before index 0, so its syndrome bit is never cleared. -/
theorem bitAt_syndromeAfter_sequential_zero :
    bitAt (syndromeAfter .sequentialRecompute syn) 0 = bitAt syn 0 := by
  rw [syndromeAfter, bitAt_bitsOfFn _ (by decide), decide_eq_false (by decide), Bool.false_and, Bool.not_false,
    Bool.and_true]

/-- Every later syndrome bit is cleared by a repair at the index before it, and by nothing else. -/
theorem bitAt_syndromeAfter_sequential_succ {i : Nat} (h : i < 37) :
    bitAt (syndromeAfter .sequentialRecompute syn) (i + 1) = (bitAt syn (i + 1) && !firesSequential syn i) := by
  rw [syndromeAfter, bitAt_bitsOfFn _ (Nat.add_lt_add_right h 1), decide_eq_true i.succ_pos, Bool.true_and,
    Nat.add_sub_cancel, flips_sequential h]

end Sys2Proof.Machine
end

section
/-! D4's alternative mode of PCORR. -/

namespace Sys2Proof.Machine

/-- Settles O24: the tests of D4's loop are `firesSequential`, whose two equations are the loop's; they decide both the
flips and the bits cleared in the wire. -/
theorem pcorrRecomputesSequentially : Obligations.PcorrRecomputesSequentially := by
  unfold Obligations.PcorrRecomputesSequentially
  intro s hmode
  refine ⟨correct .sequentialRecompute s.wires.d s.wires.syn, syndromeAfter .sequentialRecompute s.wires.syn,
    firesSequential s.wires.syn, ?_, rfl, fun _ _ => rfl, fun i hi => ?_, ?_,
    bitAt_syndromeAfter_sequential_zero _, fun i hi => bitAt_syndromeAfter_sequential_succ _ (by omega)⟩
  · simp only [exec, execPcorr, pcorrStage, hmode, State.setWires_eq]
  · rw [bitAt_correct (by omega), flips_sequential (by omega)]
  · rw [bitAt_correct (by decide), flips_last, Bool.xor_false]

end Sys2Proof.Machine
end
